-- ==== Sys2Proof/Word.lean ====
section
/-! DEFINITION. The word types of the block (spec/00_scope.md R11, R13): bytes and 16-bit addresses. -/

namespace Sys2Proof

/-- `DATA_WIDTH` = 8 (R11): registers `A`, `X`, `STATUS`, memory bytes, opcodes and operands; "u8" in R13. -/
abbrev Byte := BitVec 8

/-- `PC_WIDTH` = `ADDR_WIDTH` = 16 (R11): the program counter and every memory address; "u16" in R13. -/
abbrev Addr := BitVec 16

end Sys2Proof
end

