-- ==== Sys2Proof/Syntax.lean ====
section
/-! DEFINITION. The instructions: one constructor for each row of spec/opcode_table.json. -/

namespace Sys2Proof

/-- The rows of spec/opcode_table.json (spec/30_encoding.md R63, R64), in the table's order. -/
inductive Instr where
  /-- BRK, opcode 0x00: halt (R110). -/
  | brk
  /-- LDA immediate, opcode 0xA9 and one operand byte (R90, R62). -/
  | lda (imm8 : Byte)
  /-- TAX, opcode 0xAA (R91). -/
  | tax
  /-- INX, opcode 0xE8 (R100). -/
  | inx
  /-- Any other opcode byte: the table's row "(unimplemented)" (R64). -/
  | unimplemented (opcode : Byte)
  deriving DecidableEq, Repr

end Sys2Proof
end

