-- ==== Sys2Proof/WellFormed.lean ====
section
/-! DEFINITION. Which terms of `Instr` stand for bytes of an instruction stream. -/

namespace Sys2Proof

/-- The four opcode bytes of the map in spec/30_encoding.md R63. -/
def definedOpcode (op : Byte) : Bool :=
  op == 0x00 || op == 0xA9 || op == 0xAA || op == 0xE8

/-- R64: the unimplemented row holds exactly the 252 bytes that are not in the map of R63. The other rows have no
field that could be out of range (R62: `imm8` is any byte). -/
def WellFormed : Instr → Bool
  | .brk => true
  | .lda _ => true
  | .tax => true
  | .inx => true
  | .unimplemented op => !definedOpcode op

end Sys2Proof
end

