-- ==== Sys2Proof/Decode.lean ====
section
/-! DEFINITION. The decoder and the encoder, from the tables of spec/30_encoding.md (R60, R63 to R65, R72). -/

namespace Sys2Proof

/-- Why a byte list is no instruction: it ends too early. No byte VALUE is rejected here, since the bytes outside
the map of R63 are the table's row "(unimplemented)" and have an effect of their own (R64). -/
inductive DecodeError where
  /-- There is no opcode byte. -/
  | noOpcode
  /-- The opcode 0xA9 has no operand byte after it (R60: LDA is two bytes). -/
  | noOperand
  deriving DecidableEq, Repr

/-- R63: BRK. -/
def opBrk : Byte := 0x00

/-- R63: LDA immediate. -/
def opLda : Byte := 0xA9

/-- R63: TAX. -/
def opTax : Byte := 0xAA

/-- R63: INX. -/
def opInx : Byte := 0xE8

/-- R61, R63, R72: the whole opcode byte selects the instruction; R62: LDA's operand is the next byte, unchanged.
The answer is the instruction and the bytes after it. -/
def decode : List Byte → Except DecodeError (Instr × List Byte)
  | [] => .error .noOpcode
  | op :: rest =>
    if op = opBrk then .ok (.brk, rest)
    else if op = opLda then
      match rest with
      | [] => .error .noOperand
      | imm8 :: rest' => .ok (.lda imm8, rest')
    else if op = opTax then .ok (.tax, rest)
    else if op = opInx then .ok (.inx, rest)
    else .ok (.unimplemented op, rest)

/-- The opcode byte of an instruction (R63, R64). -/
def opcodeOf : Instr → Byte
  | .brk => opBrk
  | .lda _ => opLda
  | .tax => opTax
  | .inx => opInx
  | .unimplemented op => op

/-- R60: the formats `OP` (the opcode alone) and `OP_IMM8` (the opcode, then `imm8`). -/
def encode : Instr → List Byte
  | .brk => [opBrk]
  | .lda imm8 => [opLda, imm8]
  | .tax => [opTax]
  | .inx => [opInx]
  | .unimplemented op => [op]

/-- A word numbered as spec/opcode_table.json numbers it, as the two bytes (the longest instruction, R11) it lays
in memory: the first byte is bits 7 to 0; every bit from `nbits` up is 0. -/
def tableBytes (nbits w : Nat) : Byte × Byte :=
  (BitVec.ofNat 8 (w % 2 ^ nbits), BitVec.ofNat 8 (w % 2 ^ nbits / 256))

/-- The instruction `decode` reads from such a word. -/
def decodeTableWord (nbits w : Nat) : Option Instr :=
  match decode [(tableBytes nbits w).1, (tableBytes nbits w).2] with
  | .ok (i, _) => some i
  | .error _ => none

end Sys2Proof
end

