-- ==== Sys2Proof/Config.lean ====
section
/-! DEFINITION. The implementation parameters of spec/00_scope.md R11. R12: there are no others, and none is an
option. The spec leaves no value free, so this file holds no opaque constant. The `budget` of R11 is an argument
of each `run` call (Machine/HostInterface.lean). -/

namespace Sys2Proof.Config

/-- `MEM_SIZE` (R11, R29): the number of memory bytes. -/
abbrev memSize : Nat := 0x10000

/-- The highest address, 0xFFFF (R11): the one `PC` cannot advance past (R68). -/
def topAddr : Addr := 0xFFFF

/-- `ROM_BASE` (R11): where `load` places programs. -/
def romBase : Addr := 0x8000

/-- `RESET_VECTOR` (R11): low byte here, high byte at the next address. -/
def resetVector : Addr := 0xFFFC

/-- `LOAD_CAPACITY` = `MEM_SIZE - ROM_BASE` (R11). -/
abbrev loadCapacity : Nat := 0x8000

/-- `Z_BIT` (R11, R23). -/
abbrev zBit : Nat := 1

/-- `N_BIT` (R11, R23). -/
abbrev nBit : Nat := 7

/-- The mask of `Z_BIT` (R11). -/
def zMask : Byte := 0x02

/-- The mask of `N_BIT` (R11). -/
def nMask : Byte := 0x80

end Sys2Proof.Config
end

