-- ==== Sys2Proof/Machine/State.lean ====
section
/-! DEFINITION. The block's whole state as plain data (spec/10_state.md R20 to R34), why a step can stop, and the
errors of the memory controller and the host operations (spec/60_exceptions.md R120). -/

namespace Sys2Proof.Machine

/-- The memory array `MEM` (R29): the listed (address, byte) pairs; every other address reads as
`Memory.unlisted` (Machine/Ops.lean). `Memory.wf` there says what the canonical form is. -/
abbrev Memory := List Host.Cell

/-- The run-state `RUN` (R30). -/
inductive RunState where
  /-- The next step fetches at `PC`. -/
  | ready
  /-- A BRK retired. -/
  | halted
  /-- A step raised a fault. -/
  | faulted
  deriving DecidableEq, Repr

/-- The core faults, the ones a step raises (R120). -/
inductive FaultKind where
  /-- Code 1 (R121). -/
  | unimplementedOpcode
  /-- Code 2 (R122). -/
  | pcOverflow
  deriving DecidableEq, Repr

/-- The fault record `FAULT` (R31). Its numeric code is `FaultKind.code` of `kind` (Machine/Ops.lean). -/
structure FaultRecord where
  kind : FaultKind
  /-- The opcode byte the faulting step fetched. -/
  opcode : Byte
  /-- The address of that byte. -/
  pc : Addr
  deriving DecidableEq, Repr

/-- The state of the block: the register file (R20), the memory array (R29), the run-state (R30) and the fault
record (R31). R32 says what is not state. -/
structure State where
  /-- `accumulator` (R21). -/
  a : Byte
  /-- `index_x` (R22). -/
  x : Byte
  /-- `status` (R23): Z at bit 1, N at bit 7, the other bits plain storage (R24). -/
  status : Byte
  /-- `program_counter` (R28). -/
  pc : Addr
  /-- `MEM` (R29). -/
  mem : Memory
  /-- `RUN` (R30). -/
  runState : RunState
  /-- `FAULT` (R31): absent or a record. -/
  fault : Option FaultRecord
  deriving DecidableEq, Repr

/-- R34, column "after reset()", of a block whose memory is as constructed: `PC` is `read16(0xFFFC)` of zero-filled
memory, so 0x0000 (R153). The column "after construction" gives the same values (R150). -/
def State.reset : State where
  a := 0x00
  x := 0x00
  status := 0x00
  pc := 0x0000
  mem := []
  runState := .ready
  fault := none

/-- Why `step` answers no next state. Neither is a core fault of R120: those are NEXT states, in which `RUN` is
`Faulted` and `FAULT` holds the record (R128). A step is defined only in `Ready` (R68). -/
inductive Fault where
  /-- Raised by `step` when `RUN` = `Halted`. SAFE: R137, "In `Halted` no step occurs"; only the host goes on. -/
  | halted
  /-- Raised by `step` when `RUN` = `Faulted`. SAFE: R129, no step occurs until the host resets the block. -/
  | faulted
  deriving DecidableEq, Repr

/-- Why an instruction has no meaning in the model. -/
inductive Refusal where
  /-- Raised by an arm of `exec` whose instruction is not modelled yet. SAFE. No arm of this model answers it. -/
  | notModelled (mnemonic : String)
  deriving DecidableEq, Repr

/-- The operation errors (R120): returned to the caller of a memory-controller or host operation, which then has
changed nothing (R123, R124). -/
inductive OpError where
  /-- Code 3 (R123): the operation's start address and the number of bytes asked for. -/
  | addressOutOfRange (addr : Addr) (len : Nat)
  /-- Code 4 (R124): the program's length. -/
  | imageTooLarge (len : Nat)
  deriving DecidableEq, Repr

end Sys2Proof.Machine
end

