-- ==== Sys2Proof/Machine/Ops.lean ====
section
/-! DEFINITION. The named operations: the memory controller (spec/20_memory.md R41 to R48), the register accessors,
the exact advance of `PC` (spec/30_encoding.md R68) and the entry into a core fault (spec/60_exceptions.md R128).
There is no return from a fault beside it: R129, "No instruction returns from a fault"; the host's `reset`
(Machine/HostInterface.lean) is the only way out. -/

namespace Sys2Proof.Machine

/-! ### Memory at one address -/

/-- What an address that is not listed reads as: memory is "created zero-filled" (R29, R33). -/
def Memory.unlisted : Byte := 0x00

/-- The byte at address `n`. -/
def Memory.get : Memory → Nat → Byte
  | [], _ => Memory.unlisted
  | (k, b) :: rest, n => if k = n then b else Memory.get rest n

/-- Memory with byte `n` set to `v`, in canonical form again. -/
def Memory.put : Memory → Nat → Byte → Memory
  | [], n, v => if v = Memory.unlisted then [] else [(n, v)]
  | (k, b) :: rest, n, v =>
    if n < k then (if v = Memory.unlisted then (k, b) :: rest else (n, v) :: (k, b) :: rest)
    else if n = k then (if v = Memory.unlisted then rest else (n, v) :: rest)
    else (k, b) :: Memory.put rest n v

/-- The canonical form from address `lo` on: addresses strictly rising, inside the address space (R40), and no
listed byte equal to what an unlisted address reads as. -/
def Memory.wfFrom : Nat → Memory → Bool
  | _, [] => true
  | lo, (k, b) :: rest =>
    decide (lo ≤ k) && decide (k < Config.memSize) && (b != Memory.unlisted) && Memory.wfFrom (k + 1) rest

/-- The canonical form: memories that read the same are then the same list. -/
def Memory.wf (m : Memory) : Bool := Memory.wfFrom 0 m

/-! ### The memory controller -/

/-- The low byte of a 16-bit value, all eight bits of it (R44; spec/90_conflicts.md C3). -/
def loByte (v : BitVec 16) : Byte := v.extractLsb' 0 8

/-- The high byte of a 16-bit value. -/
def hiByte (v : BitVec 16) : Byte := v.extractLsb' 8 8

/-- `hi ++ lo` (R14), the value of a little-endian pair (R46). -/
def word16 (hi lo : Byte) : BitVec 16 := hi ++ lo

/-- `read8` (R41). -/
def Memory.read8 (m : Memory) (addr : Addr) : Byte := Memory.get m addr.toNat

/-- `write8` (R42). -/
def Memory.write8 (m : Memory) (addr : Addr) (v : Byte) : Memory := Memory.put m addr.toNat v

/-- The two bytes at `addr` and `addr + 1` as one little-endian value, where both exist. -/
def Memory.pairAt (m : Memory) (addr : Addr) : BitVec 16 :=
  word16 (Memory.read8 m (addr + 1)) (Memory.read8 m addr)

/-- `read16` (R43): fails only at 0xFFFF, whose high byte would be at 0x10000. -/
def Memory.read16 (m : Memory) (addr : Addr) : Except OpError (BitVec 16) :=
  if addr.toNat + 1 > 0xFFFF then .error (.addressOutOfRange addr 2) else .ok (Memory.pairAt m addr)

/-- `write16` (R44): the check stands before either byte is written. -/
def Memory.write16 (m : Memory) (addr : Addr) (v : BitVec 16) : Except OpError Memory :=
  if addr.toNat + 1 > 0xFFFF then .error (.addressOutOfRange addr 2)
  else .ok (Memory.write8 (Memory.write8 m addr (loByte v)) (addr + 1) (hiByte v))

/-- The copy of R45, in increasing order of addresses. -/
def Memory.copyFrom : Memory → Nat → List Byte → Memory
  | m, _, [] => m
  | m, n, b :: bs => Memory.copyFrom (Memory.put m n b) (n + 1) bs

/-- `load_block` (R45): the check comes first, and nothing is copied where it fails. -/
def Memory.loadBlock (m : Memory) (base : Addr) (bytes : List Byte) : Except OpError Memory :=
  if base.toNat + bytes.length > Config.memSize then .error (.addressOutOfRange base bytes.length)
  else .ok (Memory.copyFrom m base.toNat bytes)

/-! ### Registers, one writer each (R15) -/

/-- `A <- v`. -/
def State.setA (s : State) (v : Byte) : State := { s with a := v }

/-- `X <- v`. -/
def State.setX (s : State) (v : Byte) : State := { s with x := v }

/-- `STATUS <- v`, all eight bits. -/
def State.setStatus (s : State) (v : Byte) : State := { s with status := v }

/-- `PC <- v`. -/
def State.setPc (s : State) (v : Addr) : State := { s with pc := v }

/-- `MEM <- m`. -/
def State.setMem (s : State) (m : Memory) : State := { s with mem := m }

/-- `RUN <- r`. -/
def State.setRunState (s : State) (r : RunState) : State := { s with runState := r }

/-- `FAULT <- f`. -/
def State.setFault (s : State) (f : Option FaultRecord) : State := { s with fault := f }

/-! ### Faults -/

/-- The numeric code of a core fault (R120). -/
def FaultKind.code : FaultKind → Nat
  | .unimplementedOpcode => 1
  | .pcOverflow => 2

/-- The numeric code of an operation error (R120). -/
def OpError.code : OpError → Nat
  | .addressOutOfRange _ _ => 3
  | .imageTooLarge _ => 4

/-- The fault record as the caller of `run` sees it (R31): kind, numeric code, opcode, address. -/
def FaultRecord.report (r : FaultRecord) : FaultKind × Nat × Byte × Addr :=
  (r.kind, r.kind.code, r.opcode, r.pc)

/-- Fault entry, `raise kind(opcode = op, pc = PC)` (R17, R128): only `RUN` and `FAULT` change. `PC` still holds the
address of the opcode byte, since it is written only at retirement (R69). -/
def raiseFault (kind : FaultKind) (op : Byte) (s : State) : State :=
  (s.setRunState .faulted).setFault (some { kind := kind, opcode := op, pc := s.pc })

/-- The advance of R68 and R90 past the byte at `addr` of the instruction whose opcode is `op`: exact, so at 0xFFFF it
raises `PcOverflow` and never wraps (R28, R122). Otherwise the instruction goes on with the next address. -/
def advance (op : Byte) (addr : Addr) (s : State) (k : Addr → State) : State :=
  if addr = Config.topAddr then raiseFault .pcOverflow op s else k (addr + 1)

end Sys2Proof.Machine
end

