-- ==== Sys2Proof/Machine/Operands.lean ====
section
/-! DEFINITION. The operand forms (spec/30_encoding.md R62) and the ALU's two data operations
(spec/40_alu.md R80, R81). -/

namespace Sys2Proof.Machine

/-- The registers an instruction can name, always implied by its opcode (R62). -/
inductive DataReg where
  | a
  | x
  deriving DecidableEq, Repr

/-- A source operand: the instruction's literal data byte, or an implied register (R62). -/
inductive Operand where
  | imm (v : Byte)
  | reg (r : DataReg)
  deriving DecidableEq, Repr

/-- `x[r]` (R15). -/
def State.readReg (s : State) : DataReg → Byte
  | .a => s.a
  | .x => s.x

/-- `x[r] <- v` (R15). -/
def State.writeReg (s : State) (r : DataReg) (v : Byte) : State :=
  match r with
  | .a => s.setA v
  | .x => s.setX v

/-- The value of a source operand. An immediate is used unchanged (R62). -/
def Operand.value (o : Operand) (s : State) : Byte :=
  match o with
  | .imm v => v
  | .reg r => s.readReg r

/-- The result register of an instruction (spec/00_scope.md, glossary): `A` for LDA, `X` for TAX and INX; BRK has
none, and neither has an unimplemented byte. -/
def resultReg : Instr → Option DataReg
  | .brk => none
  | .lda _ => some .a
  | .tax => some .x
  | .inx => some .x
  | .unimplemented _ => none

/-- `ALU_PASS` (R80). -/
def aluPass (v : Byte) : Byte := v

/-- `ALU_INC8` (R81): `(v + 1) mod 256`; the addition of `BitVec 8` is modulo 256. -/
def aluInc8 (v : Byte) : Byte := v + 1

end Sys2Proof.Machine
end

