-- ==== Sys2Proof/Machine/Flags.lean ====
section
/-! DEFINITION. The flag computation (spec/40_alu.md R82 to R86) and the retirement of an instruction, which writes
its result, the flags and `PC` together (spec/30_encoding.md R69). -/

namespace Sys2Proof.Machine

/-- `flagsZN` (R82): the new `STATUS` from the old one and the value just written. -/
def flagsZN (s v : Byte) : Byte :=
  let s1 := if v = 0x00 then s ||| Config.zMask else s &&& ~~~Config.zMask
  if v.getLsbD 7 = true then s1 ||| Config.nMask else s1 &&& ~~~Config.nMask

/-- The Zero flag of a `STATUS` value (R25). -/
def zFlag (status : Byte) : Bool := status.getLsbD Config.zBit

/-- The Negative flag of a `STATUS` value (R26). -/
def nFlag (status : Byte) : Bool := status.getLsbD Config.nBit

/-- An instruction with a result register retires (R69): the result `v` to `r`, the flags from `v` (R86), the next
address to `PC`. -/
def retireResult (r : DataReg) (v : Byte) (next : Addr) (s : State) : State :=
  ((s.writeReg r v).setStatus (flagsZN s.status v)).setPc next

/-- BRK retires (R69, R110): `PC` and `RUN` alone. -/
def retireHalt (next : Addr) (s : State) : State :=
  (s.setPc next).setRunState .halted

end Sys2Proof.Machine
end

