-- ==== Sys2Proof/Machine/Arithmetic.lean ====
section
/-! DEFINITION. The arithmetic instruction (spec/42_arithmetic.md): INX. -/

namespace Sys2Proof.Machine

/-- INX (R100): advance past the opcode, then `X <- (X + 1) mod 256` with the flags from it. -/
def execInx (s : State) : Host.Outcome State Fault Refusal :=
  .next <| advance opInx s.pc s fun npc =>
    retireResult .x (aluInc8 ((Operand.reg .x).value s)) npc s

end Sys2Proof.Machine
end

