-- ==== Sys2Proof/Machine/Control.lean ====
section
/-! DEFINITION. The control instruction BRK (spec/43_control.md), and what an opcode byte outside the map does
(spec/30_encoding.md R64, spec/60_exceptions.md R121). -/

namespace Sys2Proof.Machine

/-- BRK (R110): advance past the opcode and halt. It pushes nothing and reads no vector. -/
def execBrk (s : State) : Host.Outcome State Fault Refusal :=
  .next <| advance opBrk s.pc s fun npc => retireHalt npc s

/-- An unimplemented opcode (R64, R121): advance past the opcode, then raise `UnimplementedOpcode`. At 0xFFFF the
advance's `PcOverflow` comes first (R127). -/
def execUnimplemented (opcode : Byte) (s : State) : Host.Outcome State Fault Refusal :=
  .next <| advance opcode s.pc s fun _ => raiseFault .unimplementedOpcode opcode s

end Sys2Proof.Machine
end

