-- ==== Sys2Proof/Machine/LoadTransfer.lean ====
section
/-! DEFINITION. The data-movement instructions (spec/41_load_transfer.md): LDA immediate and TAX. In every meaning
the state's `pc` is R68's `ipc`, the address of the opcode byte. -/

namespace Sys2Proof.Machine

/-- LDA (R90): advance past the opcode and past the operand byte, then `A <- imm8` with the flags from it. -/
def execLda (imm8 : Byte) (s : State) : Host.Outcome State Fault Refusal :=
  .next <| advance opLda s.pc s fun npc =>
    advance opLda npc s fun next =>
      retireResult .a (aluPass ((Operand.imm imm8).value s)) next s

/-- TAX (R91): advance past the opcode, then `X <- A` with the flags from it. -/
def execTax (s : State) : Host.Outcome State Fault Refusal :=
  .next <| advance opTax s.pc s fun npc =>
    retireResult .x (aluPass ((Operand.reg .a).value s)) npc s

end Sys2Proof.Machine
end

