-- ==== Sys2Proof/Machine/Fetch.lean ====
section
/-! DEFINITION. Fetching: when a step is defined, the bytes it reads and the instruction it finds
(spec/30_encoding.md R68), and the placing of a table word where the next fetch reads it. -/

namespace Sys2Proof.Machine

/-- Why no step is defined in this state, if none is (R30, R68: only in `Ready`). -/
def stepGuard (s : State) : Option Fault :=
  match s.runState with
  | .ready => none
  | .halted => some .halted
  | .faulted => some .faulted

/-- The bytes a step can read: the opcode byte at `PC` and, where it exists, the byte after it. Reading the second
byte early is not observable (R50: a read has no side effect). -/
def fetchWindow (s : State) : List Byte :=
  if s.pc = Config.topAddr then [Memory.read8 s.mem s.pc]
  else [Memory.read8 s.mem s.pc, Memory.read8 s.mem (s.pc + 1)]

/-- The instruction at `PC`, or the state after the fault of a fetch that runs off the top of memory. `decode`
rejects only a window that is too short, which is LDA's opcode at 0xFFFF: R68 raises `PcOverflow` there. -/
def fetch (s : State) : Except State Instr :=
  match decode (fetchWindow s) with
  | .ok (i, _) => .ok i
  | .error _ => .error (raiseFault .pcOverflow (Memory.read8 s.mem s.pc) s)

/-- Memory with the two bytes of a table word at `addr` and, where it exists, the address after it. -/
def placeWord (m : Memory) (addr : Addr) (b : Byte × Byte) : Memory :=
  if addr = Config.topAddr then Memory.write8 m addr b.1
  else Memory.write8 (Memory.write8 m addr b.1) (addr + 1) b.2

end Sys2Proof.Machine
end

