-- ==== Sys2Proof/Machine/Step.lean ====
section
/-! DEFINITION. The step (spec/30_encoding.md R68 to R71). -/

namespace Sys2Proof.Machine

/-- One step: where it is defined, the instruction at `PC` is fetched and executed (R68). -/
def step (s : State) : Host.Outcome State Fault Refusal :=
  match stepGuard s with
  | some f => .fault f
  | none =>
    match fetch s with
    | .ok i => exec i s
    | .error t => .next t

/-- `s` with a table word stored where the next step fetches, at `PC`, and the block `Ready` with no fault, so that
the very next step runs it. It stands for the host's `load` of a program (notes/assumptions/2.md). -/
def State.withFetchWord (s : State) (nbits w : Nat) : State :=
  ((s.setMem (placeWord s.mem s.pc (tableBytes nbits w))).setRunState .ready).setFault none

end Sys2Proof.Machine
end

