-- ==== Sys2Proof/Machine/HostInterface.lean ====
section
/-! DEFINITION. The host interface (spec/70_reset_and_hazards.md): construction, `reset`, `load`, `run`,
`load_and_run`, presets and observation, each one indivisible transaction (R10) applied while no `run` is in
progress (R160). -/

namespace Sys2Proof.Machine

/-- Construction (R150): every register zero, memory zero-filled, `Ready`, no fault. -/
def State.construct : State where
  a := 0x00
  x := 0x00
  status := 0x00
  pc := 0x0000
  mem := []
  runState := .ready
  fault := none

/-- `reset()` (R151): the registers cleared, `PC` from the reset vector, `Ready`, the fault record cleared; memory
unchanged. Its `read16(0xFFFC)` never fails, so it is the pair of bytes there. -/
def hostReset (s : State) : State :=
  (((((s.setA 0x00).setX 0x00).setStatus 0x00).setPc (Memory.pairAt s.mem Config.resetVector)).setRunState
    .ready).setFault none

/-- `load(program)` (R154): the capacity check, the copy to 0x8000, then the reset vector. -/
def hostLoad (program : List Byte) (s : State) : Except OpError State :=
  if program.length > Config.loadCapacity then .error (.imageTooLarge program.length)
  else
    match Memory.loadBlock s.mem Config.romBase program with
    | .error e => .error e
    | .ok m =>
      match Memory.write16 m Config.resetVector Config.romBase with
      | .error e => .error e
      | .ok m' => .ok (s.setMem m')

/-- The result of `run` (R156). -/
inductive RunResult where
  /-- A BRK retired. -/
  | halted
  /-- The content of `FAULT`, which is a record whenever `RUN` is `Faulted` (R31). -/
  | fault (record : Option FaultRecord)
  /-- The budget was used up; `RUN` stays `Ready`. -/
  | budgetExhausted
  deriving DecidableEq, Repr

/-- The state after `step()`; where no step is defined, all state is kept (R137). -/
def stepOrStay (s : State) : State :=
  match step s with
  | .next t => t
  | .fault _ => s
  | .refused _ => s

/-- The loop of R156 with `n` steps of the budget left. A step that faults counts. -/
def runSteps : Nat → State → RunResult × State
  | 0, s => (.budgetExhausted, s)
  | n + 1, s =>
    match (stepOrStay s).runState with
    | .halted => (.halted, stepOrStay s)
    | .faulted => (.fault (stepOrStay s).fault, stepOrStay s)
    | .ready => runSteps n (stepOrStay s)

/-- How many steps an unbounded run from `PC` can take at most: `0x10000 - PC` (R166). -/
def unboundedSteps (s : State) : Nat := Config.memSize - s.pc.toNat

/-- The steps one `run` call may take: the budget, or for no budget the bound of R166, which never cuts a run short. -/
def stepsAllowed (budget : Option Nat) (s : State) : Nat :=
  match budget with
  | some n => n
  | none => unboundedSteps s

/-- `run(budget)` (R156): in `Faulted` no step and the same fault again; in `Halted` resume at `PC`. -/
def hostRun (budget : Option Nat) (s : State) : RunResult × State :=
  match s.runState with
  | .faulted => (.fault s.fault, s)
  | .halted => runSteps (stepsAllowed budget s) (s.setRunState .ready)
  | .ready => runSteps (stepsAllowed budget s) s

/-- `load_and_run(program)` (R157): where `load` fails, neither `reset` nor `run` happens. -/
def hostLoadAndRun (program : List Byte) (budget : Option Nat) (s : State) : Except OpError (RunResult × State) :=
  match hostLoad program s with
  | .error e => .error e
  | .ok t => .ok (hostRun budget (hostReset t))

/-- A host preset (R158): the register it names and the value. -/
inductive Preset where
  | a (v : Byte)
  | x (v : Byte)
  | status (v : Byte)
  | pc (v : Addr)
  deriving DecidableEq, Repr

/-- Apply a preset: only the register named is written (R158). -/
def hostPreset (p : Preset) (s : State) : State :=
  match p with
  | .a v => s.setA v
  | .x v => s.setX v
  | .status v => s.setStatus v
  | .pc v => s.setPc v

/-- What the host observes of the register file (R159). -/
structure Observation where
  accumulator : Byte
  indexX : Byte
  status : Byte
  programCounter : Addr
  deriving DecidableEq, Repr

/-- Host observation (R159): the register file, read without any effect. -/
def hostObserve (s : State) : Observation where
  accumulator := s.a
  indexX := s.x
  status := s.status
  programCounter := s.pc

/-- The host's reading of one memory byte, for a model's observation only (R159). -/
def hostPeek (s : State) (addr : Addr) : Byte := Memory.read8 s.mem addr

/-- One host operation on an existing instance. -/
inductive HostOp where
  | load (program : List Byte)
  | reset
  | run (budget : Option Nat)
  | loadAndRun (program : List Byte) (budget : Option Nat)
  | preset (p : Preset)
  deriving DecidableEq, Repr

/-- What a host operation returns to its caller (R126, R159). -/
inductive HostResult where
  /-- Done, with nothing to report. -/
  | done
  /-- The error of the operation; it changed nothing. -/
  | error (e : OpError)
  /-- The result of a run. -/
  | ran (r : RunResult)
  deriving DecidableEq, Repr

/-- Perform a host operation: its result and the state it leaves. A failing one changes nothing (R123, R124). -/
def perform (op : HostOp) (s : State) : HostResult × State :=
  match op with
  | .load program =>
    match hostLoad program s with
    | .error e => (.error e, s)
    | .ok t => (.done, t)
  | .reset => (.done, hostReset s)
  | .run budget => (.ran (hostRun budget s).1, (hostRun budget s).2)
  | .loadAndRun program budget =>
    match hostLoadAndRun program budget s with
    | .error e => (.error e, s)
    | .ok r => (.ran r.1, r.2)
  | .preset p => (.done, hostPreset p s)

/-- The state after a sequence of host operations, one at a time (R160). -/
def performAll : List HostOp → State → State
  | [], s => s
  | op :: ops, s => performAll ops (perform op s).2

/-- Boot (R161): `load`, then `reset`, then presets. What remains is `run`. -/
def launch (program : List Byte) (presets : List Preset) (s : State) : Except OpError State :=
  match hostLoad program s with
  | .error e => .error e
  | .ok t => .ok (presets.foldl (fun u p => hostPreset p u) (hostReset t))

end Sys2Proof.Machine
end

