-- ==== Sys2Proof/Safety.lean ====
section
/-! DEFINITION. The terms the claims use: the invariant that a safe run keeps, what it means that the flags reflect a
value, the state a fault entry leaves, and the host operations that place no program. -/

namespace Sys2Proof.Machine

/-- A record that the checks of spec/60_exceptions.md R121, R122 and R127 can write: `PcOverflow` for any opcode at
0xFFFF or for LDA at 0xFFFE; `UnimplementedOpcode` for a byte outside the map, anywhere below 0xFFFF. -/
def recordJustified (r : FaultRecord) : Bool :=
  match r.kind with
  | .pcOverflow => r.pc == Config.topAddr || (r.pc == 0xFFFE && r.opcode == opLda)
  | .unimplementedOpcode => r.pc != Config.topAddr && !definedOpcode r.opcode

/-- The invariant: memory is in canonical form; `FAULT` is present exactly when `RUN` is `Faulted` (R31); and a
record present is one that the checks can write. -/
structure State.Inv (s : State) : Prop where
  memCanonical : Memory.wf s.mem = true
  faultPresent : s.fault.isSome = true ↔ s.runState = .faulted
  recordOk : s.fault.all recordJustified = true

/-- `new` is `old` after a flag update from `v`: Z says whether `v` is zero (R83), N is bit 7 of `v` (R84), the
reserved bits are kept (R85). -/
def FlagsReflect (old v new : Byte) : Prop :=
  zFlag new = decide (v = 0x00) ∧ nFlag new = v.getLsbD 7 ∧
    ∀ k, k ≠ 1 → k ≠ 7 → new.getLsbD k = old.getLsbD k

/-- The fault entry of R128 as a state: nothing but `RUN` and `FAULT` differs from `s`. -/
def faultedWith (kind : FaultKind) (op : Byte) (s : State) : State :=
  { s with runState := .faulted, fault := some ⟨kind, op, s.pc⟩ }

/-- The host operation places no program in memory (R154, R157: only `load` and `load_and_run` do). -/
def HostOp.loadsNothing : HostOp → Bool
  | .load _ => false
  | .reset => true
  | .run _ => true
  | .loadAndRun _ _ => false
  | .preset _ => true

end Sys2Proof.Machine
end

