-- ==== Sys2Proof/Certificates/Slice0/Obligations.lean ====
section
/-! DEFINITION. The statements for the provers. Where a statement rests on one of the spec's own decisions
(spec/92_eei_decisions.md D<n>), its docstring names it. -/

open Sys2Proof Sys2Proof.Machine

/-! ### Encoding -/

/-- R63, R61, R62: the opcode map, each word written out bit by bit. The last clause, that every other opcode byte decodes
without error to the table's row "(unimplemented)", no operand read, is R64 in the form that the model chose for it
(notes/assumptions/11.md). -/
def Obligations.DecodeReadsOpcodeMap : Prop :=
  ∀ (imm8 : Byte) (rest : List Byte),
    decode (0b00000000#8 :: rest) = .ok (.brk, rest) ∧
    decode (0b10101001#8 :: imm8 :: rest) = .ok (.lda imm8, rest) ∧
    decode (0b10101010#8 :: rest) = .ok (.tax, rest) ∧
    decode (0b11101000#8 :: rest) = .ok (.inx, rest) ∧
    ∀ op : Byte, op ≠ 0x00 → op ≠ 0xA9 → op ≠ 0xAA → op ≠ 0xE8 →
      decode (op :: rest) = .ok (.unimplemented op, rest)

/-- Decoding an encoded well-formed instruction, whatever bytes follow, gives it back (30_encoding.md, sections 1
to 3). -/
def Obligations.DecodeInvertsEncode : Prop :=
  ∀ (i : Instr) (rest : List Byte), WellFormed i = true → decode (encode i ++ rest) = .ok (i, rest)

/-- The other direction: what the decoder reads is well formed, and the bytes it took are the encoding of what it
read, so that each byte sequence has one reading (30_encoding.md, sections 1 to 3). -/
def Obligations.DecodedBytesAreTheEncoding : Prop :=
  ∀ (bytes rest : List Byte) (i : Instr), decode bytes = .ok (i, rest) →
    WellFormed i = true ∧ bytes = encode i ++ rest

/-- The model's choice (notes/assumptions/11.md): the decoder rejects no opcode value, since the bytes outside the map are an
instruction of their own, and its two errors, which are the model's names, say only that a byte list ends: an empty one,
or LDA's opcode with no byte after it. -/
def Obligations.DecodeRejectsOnlyTruncation : Prop :=
  ∀ (bytes : List Byte) (e : DecodeError),
    decode bytes = .error e ↔ (bytes = [] ∧ e = .noOpcode) ∨ (bytes = [0xA9] ∧ e = .noOperand)

/-! ### The step -/

/-- R68 with decisions D2 and D3: in `Ready`, when the bytes at `PC` decode to `i`, the step is `exec i` of the same state.
Which bytes those are is the model's inference (notes/assumptions/5.md): the one at `PC` and, below 0xFFFF, always the next
one, which R68 reads for LDA alone. Where they do not decode (LDA's opcode at 0xFFFF), the fetch raises R68's `PcOverflow`,
which is the model's inference too (notes/assumptions/6.md). -/
def Obligations.StepRunsDecodedInstruction : Prop :=
  ∀ s : State, s.runState = .ready →
    (s.pc = 0xFFFF → fetchWindow s = [Memory.read8 s.mem s.pc]) ∧
    (s.pc ≠ 0xFFFF → fetchWindow s = [Memory.read8 s.mem s.pc, Memory.read8 s.mem (s.pc + 1)]) ∧
    (∀ (i : Instr) (rest : List Byte), decode (fetchWindow s) = .ok (i, rest) → step s = exec i s) ∧
    (∀ e : DecodeError, decode (fetchWindow s) = .error e →
      s.pc = 0xFFFF ∧ Memory.read8 s.mem s.pc = 0xA9 ∧ step s = .next (faultedWith .pcOverflow 0xA9 s))

/-- R30, R68, R70 with decisions D7 and D8: a `Ready` block always has a next step; in `Halted` and in `Faulted` no
step is defined, which the model says by a stop of its own name. -/
def Obligations.StepDefinedExactlyInReady : Prop :=
  (∀ s : State, s.runState = .ready → ∃ t, step s = .next t) ∧
  (∀ s : State, s.runState = .halted → step s = .fault .halted) ∧
  (∀ s : State, s.runState = .faulted → step s = .fault .faulted)

/-- R127, R121, R122 with decisions D3, D4, D5 and D6: the checks of a step in their order, the fault entry of each,
and that a step which passes them all raises no fault. -/
def Obligations.StepFaultsInOrder : Prop :=
  ∀ s : State, s.runState = .ready →
    (s.pc = 0xFFFF → step s = .next (faultedWith .pcOverflow (Memory.read8 s.mem s.pc) s)) ∧
    (s.pc ≠ 0xFFFF → definedOpcode (Memory.read8 s.mem s.pc) = false →
      step s = .next (faultedWith .unimplementedOpcode (Memory.read8 s.mem s.pc) s)) ∧
    (s.pc = 0xFFFE → Memory.read8 s.mem s.pc = 0xA9 → step s = .next (faultedWith .pcOverflow 0xA9 s)) ∧
    (s.pc ≠ 0xFFFF → definedOpcode (Memory.read8 s.mem s.pc) = true →
      ¬(s.pc = 0xFFFE ∧ Memory.read8 s.mem s.pc = 0xA9) →
      ∃ t, step s = .next t ∧ t.runState ≠ .faulted ∧ t.fault = s.fault)

/-- R69, R128 with decisions D4 and D6: a step that faults writes none of `A`, `X`, `STATUS`, `PC`, `MEM`; the record
names the opcode byte at `PC` and its address, which `PC` still holds. -/
def Obligations.FaultingStepIsPrecise : Prop :=
  ∀ s t : State, step s = .next t → t.runState = .faulted →
    t.a = s.a ∧ t.x = s.x ∧ t.status = s.status ∧ t.pc = s.pc ∧ t.mem = s.mem ∧
    ∃ r, t.fault = some r ∧ r.opcode = Memory.read8 s.mem s.pc ∧ r.pc = s.pc ∧ r.pc = t.pc ∧
      recordJustified r = true

/-- R28, R111 with decision D3: a step that retires an instruction moves `PC` up by the instruction's length,
exactly, with no wrap: 2 for the opcode 0xA9, 1 for the others. -/
def Obligations.PcAdvancesByLength : Prop :=
  ∀ s t : State, step s = .next t → t.runState ≠ .faulted →
    t.pc.toNat = s.pc.toNat + (if Memory.read8 s.mem s.pc = 0xA9 then 2 else 1)

/-- R86: in the step that retires it, an instruction's flags come from the value it writes to its result register, the
register's new value. BRK, which has none, leaves all of `STATUS` unchanged: Z by R25, N by R26, the other bits by R24
(decision D12), as R27 and R110 say too. -/
def Obligations.FlagsComeFromValueWritten : Prop :=
  ∀ s t : State, step s = .next t → t.runState ≠ .faulted →
    (Memory.read8 s.mem s.pc = 0xA9 → t.status = flagsZN s.status t.a) ∧
    (Memory.read8 s.mem s.pc = 0xAA → t.status = flagsZN s.status t.x) ∧
    (Memory.read8 s.mem s.pc = 0xE8 → t.status = flagsZN s.status t.x) ∧
    (Memory.read8 s.mem s.pc = 0x00 → t.status = s.status)

/-- R27: no instruction reads the flags. Two states that differ in `STATUS` alone step to states that differ in
`STATUS` alone, and each keeps its own reserved bits (R85). -/
def Obligations.StatusIsNeverRead : Prop :=
  ∀ (s t : State) (w : Byte), step s = .next t →
    ∃ w', step (s.setStatus w) = .next (t.setStatus w') ∧ ∀ k, k ≠ 1 → k ≠ 7 → w'.getLsbD k = w.getLsbD k

/-- R49: a step reads memory only where it fetches and writes none. Two states whose memories agree on the opcode byte and, for
0xA9 at 0xFFFD or below, on the operand byte step alike, each keeping its own memory. Above 0xFFFD R90 reads no operand
(decision D3). -/
def Obligations.StepReadsMemoryOnlyToFetch : Prop :=
  ∀ (s t : State) (m : Memory), step s = .next t →
    Memory.read8 m s.pc = Memory.read8 s.mem s.pc →
    (Memory.read8 s.mem s.pc = 0xA9 → s.pc.toNat ≤ 0xFFFD →
      Memory.read8 m (s.pc + 1) = Memory.read8 s.mem (s.pc + 1)) →
    step (s.setMem m) = .next (t.setMem m) ∧ t.mem = s.mem

/-- R111 (an inference the spec marks as its own) and R71 with decisions D3, D4 and D6: where a step goes depends on `PC` and
memory alone. Two states that differ only in `A`, `X` and `STATUS` step to the same `PC`, the same run-state, the same
fault record and the same memory: no target is computed, and no fault depends on data. -/
def Obligations.ControlFlowIgnoresData : Prop :=
  ∀ (s t : State) (a' x' w : Byte), step s = .next t →
    ∃ u, step { s with a := a', x := x', status := w } = .next u ∧
      u.pc = t.pc ∧ u.runState = t.runState ∧ u.fault = t.fault ∧ u.mem = t.mem

/-! ### The instructions -/

/-- R90, whole: encoding, effect, flags, everything else unchanged, and the step that fetches the operand byte. The
`PcOverflow` clause, at 0xFFFE and 0xFFFF, is decision D3. -/
def Obligations.LdaLoadsImmediate : Prop :=
  ∀ (imm8 : Byte) (s : State),
    encode (.lda imm8) = [0xA9, imm8] ∧
    (s.pc.toNat ≤ 0xFFFD → exec (.lda imm8) s =
      .next { s with a := imm8, status := flagsZN s.status imm8, pc := s.pc + 2 }) ∧
    FlagsReflect s.status imm8 (flagsZN s.status imm8) ∧
    (0xFFFE ≤ s.pc.toNat → exec (.lda imm8) s = .next (faultedWith .pcOverflow 0xA9 s)) ∧
    (s.runState = .ready → s.pc.toNat ≤ 0xFFFD → Memory.read8 s.mem s.pc = 0xA9 →
      step s = exec (.lda (Memory.read8 s.mem (s.pc + 1))) s)

/-- R91: `X` becomes `A`, the flags come from that value, `PC` moves past the one byte, and nothing else changes. R68
calls TAX only with an opcode below 0xFFFF; Obligations.TopOfMemoryOverflows says what happens there. -/
def Obligations.TaxTransfersAccumulator : Prop :=
  ∀ s : State, encode .tax = [0xAA] ∧
    (s.pc ≠ 0xFFFF → exec .tax s =
      .next { s with x := s.a, status := flagsZN s.status s.a, pc := s.pc + 1 }) ∧
    FlagsReflect s.status s.a (flagsZN s.status s.a) ∧
    (s.runState = .ready → s.pc ≠ 0xFFFF → Memory.read8 s.mem s.pc = 0xAA → step s = exec .tax s)

/-- R100: `X` becomes `(X + 1) mod 256`, the flags come from that value (Z exactly when the old `X` was 0xFF, N exactly
when it was 0x7F to 0xFE), `PC` moves past the one byte, and nothing else changes. R68 calls INX only with an opcode
below 0xFFFF; Obligations.TopOfMemoryOverflows says what happens there. -/
def Obligations.InxIncrementsIndex : Prop :=
  ∀ (s : State) (v : Byte), v.toNat = (s.x.toNat + 1) % 256 →
    encode .inx = [0xE8] ∧
    (s.pc ≠ 0xFFFF → exec .inx s = .next { s with x := v, status := flagsZN s.status v, pc := s.pc + 1 }) ∧
    (zFlag (flagsZN s.status v) = true ↔ s.x = 0xFF) ∧
    (nFlag (flagsZN s.status v) = true ↔ 0x7F ≤ s.x.toNat ∧ s.x.toNat ≤ 0xFE) ∧
    (∀ k, k ≠ 1 → k ≠ 7 → (flagsZN s.status v).getLsbD k = s.status.getLsbD k) ∧
    (s.runState = .ready → s.pc ≠ 0xFFFF → Memory.read8 s.mem s.pc = 0xE8 → step s = exec .inx s)

/-- R110, whole, with decisions D3 (the `PcOverflow` clause) and D8 (`RUN` as state): BRK moves `PC` past its byte and
halts; no register, flag or memory byte changes. -/
def Obligations.BrkHalts : Prop :=
  ∀ s : State, encode .brk = [0x00] ∧
    (s.pc ≠ 0xFFFF → exec .brk s = .next { s with pc := s.pc + 1, runState := .halted }) ∧
    (s.pc = 0xFFFF → exec .brk s = .next (faultedWith .pcOverflow 0x00 s)) ∧
    (s.runState = .ready → s.pc ≠ 0xFFFF → Memory.read8 s.mem s.pc = 0x00 → step s = exec .brk s)

/-- R64, R121 with decisions D4, D5 and D6: an opcode byte outside the map raises `UnimplementedOpcode` with that byte
and its address, whatever byte follows it. At 0xFFFF it is Obligations.TopOfMemoryOverflows (R127). -/
def Obligations.UnimplementedOpcodeFaults : Prop :=
  ∀ (op : Byte) (s : State), definedOpcode op = false → s.pc ≠ 0xFFFF →
    exec (.unimplemented op) s = .next (faultedWith .unimplementedOpcode op s) ∧
    (s.runState = .ready → Memory.read8 s.mem s.pc = op → step s = exec (.unimplemented op) s)

/-- R68, R122, R127 with decision D3: at 0xFFFF every instruction raises `PcOverflow`, with its opcode byte, and does
nothing else. -/
def Obligations.TopOfMemoryOverflows : Prop :=
  ∀ (i : Instr) (s : State), s.pc = 0xFFFF →
    ∃ op tail, encode i = op :: tail ∧ exec i s = .next (faultedWith .pcOverflow op s)

/-- The frame of LDA, TAX, INX, BRK and an unimplemented byte (R20 to R26, R49, R85; decisions D4, D8 and D12): the
other data register is unchanged (both are for BRK and an unimplemented byte); the reserved status bits are unchanged,
and all of `STATUS` for BRK and an unimplemented byte; every byte of memory is unchanged; `RUN` changes only to `Faulted`,
or to `Halted` by BRK; `FAULT` changes only where the instruction faults. `PC` may change. -/
def Obligations.InstructionFrame : Prop :=
  ∀ (i : Instr) (s t : State), exec i s = .next t →
    (∀ imm8, i = .lda imm8 → t.x = s.x) ∧
    (i = .tax ∨ i = .inx → t.a = s.a) ∧
    (i = .brk ∨ (∃ op, i = .unimplemented op) → t.a = s.a ∧ t.x = s.x ∧ t.status = s.status) ∧
    (∀ k, k ≠ 1 → k ≠ 7 → t.status.getLsbD k = s.status.getLsbD k) ∧
    (∀ addr : Addr, Memory.read8 t.mem addr = Memory.read8 s.mem addr) ∧
    (t.runState = s.runState ∨ t.runState = .faulted ∨ (i = .brk ∧ t.runState = .halted)) ∧
    (t.fault = s.fault ∨ t.runState = .faulted)

/-! ### The flags and the ALU -/

/-- R83, R84, R85: Z, N and the bits left untouched. What the spec derives from them, that Z and N are never both 1 after an
update, is Obligations.ZeroAndNegativeExclusive. -/
def Obligations.FlagUpdateRules : Prop :=
  ∀ s v : Byte,
    ((flagsZN s v).getLsbD 1 = true ↔ v = 0x00) ∧
    ((flagsZN s v).getLsbD 7 = true ↔ 0x80 ≤ v.toNat) ∧
    (∀ k, k ≠ 1 → k ≠ 7 → (flagsZN s v).getLsbD k = s.getLsbD k)

/-- The last sentence of R85, an inference the spec marks as its own: Z and N are never both 1 after an update. So, where they
are not both 1, no step makes them so. -/
def Obligations.ZeroAndNegativeExclusive : Prop :=
  (∀ s v : Byte, ¬(zFlag (flagsZN s v) = true ∧ nFlag (flagsZN s v) = true)) ∧
  ∀ s t : State, ¬(zFlag s.status = true ∧ nFlag s.status = true) → step s = .next t →
    ¬(zFlag t.status = true ∧ nFlag t.status = true)

/-- R80, R81: `ALU_PASS` and `ALU_INC8`; 0xFF is the only input that wraps, and of a `STATUS` updated from the result
no bit but Z and N depends on the increment. -/
def Obligations.AluPassesAndIncrements : Prop :=
  ∀ v : Byte, aluPass v = v ∧ (aluInc8 v).toNat = (v.toNat + 1) % 256 ∧
    ((aluInc8 v).toNat ≠ v.toNat + 1 ↔ v = 0xFF) ∧
    ∀ (status : Byte) (k : Nat), k ≠ 1 → k ≠ 7 →
      (flagsZN status (aluInc8 v)).getLsbD k = status.getLsbD k

/-! ### Memory -/

/-- R42: `write8` stores the byte and changes no other. -/
def Obligations.Write8StoresOneByte : Prop :=
  ∀ (m : Memory) (addr : Addr) (v : Byte), Memory.wf m = true →
    Memory.read8 (Memory.write8 m addr v) addr = v ∧
    ∀ other : Addr, other ≠ addr → Memory.read8 (Memory.write8 m addr v) other = Memory.read8 m other

/-- R43: `read16` fails only at 0xFFFF, with `AddressOutOfRange(addr, 2)`; elsewhere it is the high byte times 256 plus
the low byte. -/
def Obligations.Read16IsLittleEndian : Prop :=
  ∀ (m : Memory) (addr : Addr),
    (addr = 0xFFFF → Memory.read16 m addr = .error (.addressOutOfRange addr 2)) ∧
    (addr ≠ 0xFFFF → ∃ v, Memory.read16 m addr = .ok v ∧
      v.toNat = (Memory.read8 m (addr + 1)).toNat * 256 + (Memory.read8 m addr).toNat)

/-- R44: `write16` fails only at 0xFFFF, writing nothing; elsewhere it stores the complete low byte and then the high
byte, and changes no other byte. -/
def Obligations.Write16StoresBothBytes : Prop :=
  ∀ (m : Memory) (addr : Addr) (v : BitVec 16), Memory.wf m = true →
    (addr = 0xFFFF → Memory.write16 m addr v = .error (.addressOutOfRange addr 2)) ∧
    (addr ≠ 0xFFFF → ∃ m', Memory.write16 m addr v = .ok m' ∧
      (Memory.read8 m' addr).toNat = v.toNat % 256 ∧
      (Memory.read8 m' (addr + 1)).toNat = v.toNat / 256 ∧
      ∀ other : Addr, other ≠ addr → other ≠ addr + 1 → Memory.read8 m' other = Memory.read8 m other)

/-- The round trips of R47 (an inference the spec marks as its own): a 16-bit value written reads back as 16 bits, and
two bytes written read as one 16-bit value. -/
def Obligations.MixedWidthRoundTrips : Prop :=
  ∀ (m : Memory) (addr : Addr), Memory.wf m = true → addr ≠ 0xFFFF →
    (∀ v m', Memory.write16 m addr v = .ok m' → Memory.read16 m' addr = .ok v) ∧
    (∀ b0 b1 : Byte,
      Memory.read16 (Memory.write8 (Memory.write8 m addr b0) (addr + 1) b1) addr = .ok (b1 ++ b0))

/-- R45: `load_block` past the end of memory fails with its base and length; otherwise each byte of the block stands at
its place and every other byte is unchanged; an empty block writes nothing. -/
def Obligations.LoadBlockCopiesOrFails : Prop :=
  ∀ (m : Memory) (base : Addr) (bytes : List Byte), Memory.wf m = true →
    (base.toNat + bytes.length > 0x10000 →
      Memory.loadBlock m base bytes = .error (.addressOutOfRange base bytes.length)) ∧
    (base.toNat + bytes.length ≤ 0x10000 → ∃ m', Memory.loadBlock m base bytes = .ok m' ∧
      (∀ (k : Nat) (hk : k < bytes.length), Memory.read8 m' (base + BitVec.ofNat 16 k) = bytes[k]) ∧
      (∀ a : Addr, a.toNat < base.toNat ∨ base.toNat + bytes.length ≤ a.toNat →
        Memory.read8 m' a = Memory.read8 m a) ∧
      (bytes = [] → m' = m))

/-- The model's own canonical form (notes/assumptions/1.md): two canonical memories that read the same at every address
are the same data. -/
def Obligations.CanonicalMemoriesThatReadAlikeAreEqual : Prop :=
  ∀ m m' : Memory, Memory.wf m = true → Memory.wf m' = true →
    (∀ a : Addr, Memory.read8 m a = Memory.read8 m' a) → m = m'

/-! ### Invariants -/

/-- The invariant holds right after reset. -/
def Obligations.ResetMeetsInvariant : Prop := State.Inv State.reset

/-- Every step keeps the invariant: canonical memory (notes/assumptions/1.md), `FAULT` present exactly when `RUN` is
`Faulted` (R31, decisions D5 and D6), and only records that the checks of R127 can write. -/
def Obligations.StepKeepsInvariant : Prop :=
  ∀ s t : State, State.Inv s → step s = .next t → State.Inv t

/-- Every host operation keeps the invariant, one that fails too, whatever its arguments. -/
def Obligations.HostOperationsKeepInvariant : Prop :=
  ∀ (op : HostOp) (s : State), State.Inv s → State.Inv (perform op s).2

/-! ### The host interface -/

/-- R34, R150, R153 with decisions D9 and D22: every value of the block after construction; the block after reset has the same
ones, since `reset` of the block as constructed leaves it so; every byte of its memory reads 0x00. -/
def Obligations.ConstructionAndResetValues : Prop :=
  (∀ s : State, s = State.construct ∨ s = State.reset ∨ s = hostReset State.construct →
    s.a = 0x00 ∧ s.x = 0x00 ∧ s.status = 0x00 ∧ s.pc = 0x0000 ∧ s.runState = .ready ∧ s.fault = none ∧
    ∀ addr : Addr, Memory.read8 s.mem addr = 0x00) ∧
  State.construct = State.reset ∧ hostReset State.construct = State.reset

/-- R151 with decisions D7 and D8: what `reset` leaves, in every run-state: cleared registers, `PC` from the vector (low
byte at 0xFFFC, high byte at 0xFFFD), `Ready`, no fault, the same memory; its `read16` does not fail. -/
def Obligations.HostResetClearsAndVectors : Prop :=
  ∀ s : State, ∃ v, Memory.read16 s.mem 0xFFFC = .ok v ∧
    v.toNat = (Memory.read8 s.mem 0xFFFD).toNat * 256 + (Memory.read8 s.mem 0xFFFC).toNat ∧
    hostReset s = { a := 0x00, x := 0x00, status := 0x00, pc := v, mem := s.mem, runState := .ready, fault := none }

/-- R154, R155 with decisions D14, D21 and D23: a program within the capacity is copied to 0x8000, then the vector is
set to 0x8000, replacing what the program placed there; every other byte, all registers, `RUN` and `FAULT` are kept. -/
def Obligations.HostLoadPlacesProgram : Prop :=
  ∀ (program : List Byte) (s : State), Memory.wf s.mem = true → program.length ≤ 0x8000 →
    ∃ m, hostLoad program s = .ok { s with mem := m } ∧
      Memory.read8 m 0xFFFC = 0x00 ∧ Memory.read8 m 0xFFFD = 0x80 ∧
      (∀ (k : Nat) (hk : k < program.length), k ≠ 0x7FFC → k ≠ 0x7FFD →
        Memory.read8 m (0x8000 + BitVec.ofNat 16 k) = program[k]) ∧
      (∀ a : Addr, a ≠ 0xFFFC → a ≠ 0xFFFD → a.toNat < 0x8000 ∨ 0x8000 + program.length ≤ a.toNat →
        Memory.read8 m a = Memory.read8 s.mem a)

/-- R124 with decision D5 (the code 4): a program longer than 0x8000 bytes is refused with its length, and nothing at
all changes. -/
def Obligations.HostLoadRefusesLargeImage : Prop :=
  ∀ (program : List Byte) (s : State), program.length > 0x8000 →
    hostLoad program s = .error (.imageTooLarge program.length) ∧
    perform (.load program) s = (.error (.imageTooLarge program.length), s) ∧
    OpError.code (.imageTooLarge program.length) = 4

/-- R120, R31 with decision D5: the numeric codes. A step that faults leaves a record reported with code 1 for
`UnimplementedOpcode` and 2 for `PcOverflow`, beside the byte and the address of the opcode; the memory controller's
errors have code 3, and `load`'s has code 4. -/
def Obligations.FaultAndErrorCodes : Prop :=
  (∀ s t : State, step s = .next t → t.runState = .faulted →
    ∃ r, t.fault = some r ∧
      (r.report = (.unimplementedOpcode, 1, Memory.read8 s.mem s.pc, s.pc) ∨
        r.report = (.pcOverflow, 2, Memory.read8 s.mem s.pc, s.pc))) ∧
  (∀ (m : Memory) (addr : Addr) (e : OpError), Memory.read16 m addr = .error e → e.code = 3) ∧
  (∀ (m : Memory) (addr : Addr) (v : BitVec 16) (e : OpError), Memory.write16 m addr v = .error e → e.code = 3) ∧
  (∀ (m : Memory) (base : Addr) (bytes : List Byte) (e : OpError),
    Memory.loadBlock m base bytes = .error e → e.code = 3) ∧
  (∀ (program : List Byte) (s : State) (e : OpError), hostLoad program s = .error e → e.code = 4)

/-- R161, R158 and the last line of R34 (inferences the spec marks as its own, and decisions D7 to D10): after `load` and `reset`
the block stands at 0x8000, `Ready`, with cleared registers, whatever it was before; a launch then applies the presets in
their order, and they change no memory, run-state or fault record. -/
def Obligations.LaunchStartsAtRomBase : Prop :=
  ∀ (program : List Byte) (presets : List Preset) (s t : State), Memory.wf s.mem = true →
    hostLoad program s = .ok t →
    hostReset t = { State.reset with pc := 0x8000, mem := t.mem } ∧
    ∃ u, launch program presets s = .ok u ∧
      u = performAll (presets.map HostOp.preset) (hostReset t) ∧
      u = performAll (.load program :: .reset :: presets.map HostOp.preset) s ∧
      u.mem = t.mem ∧ u.runState = .ready ∧ u.fault = none

/-- R152 (an inference the spec marks as its own, and decisions D7 to D11): after a `load`, whatever runs, resets and
presets follow, `reset` gives the state the first `reset` gave, with `PC` at 0x8000. -/
def Obligations.ResetAfterLoadAlwaysRestores : Prop :=
  ∀ (program : List Byte) (ops : List HostOp) (s t : State), Memory.wf s.mem = true →
    hostLoad program s = .ok t → ops.all HostOp.loadsNothing = true →
    hostReset (performAll ops t) = hostReset t ∧ (hostReset (performAll ops t)).pc = 0x8000

/-- R152's reason (an inference the spec marks as its own, and decisions D7 to D11), as a lemma over one operation: a host
operation that places no program leaves what `reset` gives as it was, in every state. -/
def Obligations.OperationKeepsResetOutcome : Prop :=
  ∀ (op : HostOp) (s : State), op.loadsNothing = true → hostReset (perform op s).2 = hostReset s

/-- R129, R156 with decisions D4, D7, D10, D18 and D21: in `Faulted` a run executes no step and returns the record again;
`load` and presets clear neither `RUN` nor `FAULT`; `reset` clears both. -/
def Obligations.FaultLastsUntilReset : Prop :=
  ∀ s : State, s.runState = .faulted →
    (∀ budget, hostRun budget s = (.fault s.fault, s)) ∧
    (∀ program t, hostLoad program s = .ok t → t.runState = .faulted ∧ t.fault = s.fault) ∧
    (∀ p, (hostPreset p s).runState = .faulted ∧ (hostPreset p s).fault = s.fault) ∧
    (hostReset s).runState = .ready ∧ (hostReset s).fault = none

/-- R158 with decision D10: a preset writes the register it names and nothing else. -/
def Obligations.PresetWritesOneRegister : Prop :=
  ∀ (s : State) (v : Byte) (addr : Addr),
    perform (.preset (.a v)) s = (.done, { s with a := v }) ∧
    perform (.preset (.x v)) s = (.done, { s with x := v }) ∧
    perform (.preset (.status v)) s = (.done, { s with status := v }) ∧
    perform (.preset (.pc addr)) s = (.done, { s with pc := addr })

/-- R156, R137 with decisions D8 and D11: a run of a `Halted` block is the run of the same block `Ready`, so it goes on
after the BRK; a run with budget 0 takes no step. -/
def Obligations.RunResumesAfterHalt : Prop :=
  ∀ (budget : Option Nat) (s : State), s.runState = .halted →
    hostRun budget s = hostRun budget { s with runState := .ready } ∧
    hostRun (some 0) s = (.budgetExhausted, { s with runState := .ready })

/-- R156 with decisions D8, D11 and D18: one turn of the loop. A `Ready` block with a positive budget takes the step,
and the run ends where the step halts or faults; else it goes on with one less. -/
def Obligations.RunTakesOneStep : Prop :=
  ∀ (n : Nat) (s t : State), step s = .next t →
    hostRun (some (n + 1)) s =
      (match t.runState with
      | .halted => (.halted, t)
      | .faulted => (.fault t.fault, t)
      | .ready => hostRun (some n) t)

/-- R156 with decisions D8 and D11: a run that used up its budget can be continued: the longer run is the two runs one
after the other. -/
def Obligations.RunContinuesAfterBudget : Prop :=
  ∀ (m n : Nat) (s t : State), hostRun (some m) s = (.budgetExhausted, t) →
    t.runState = .ready ∧ hostRun (some (m + n)) s = hostRun (some n) t

/-- R166 (an inference the spec marks as its own, on decision D3): every unbounded run ends, with a halt or a fault, and it is the
run with any budget of at least `0x10000 - PC` steps. `hostRun none` is itself a run bounded by R166's number of steps
(notes/assumptions/7.md); the two clauses say that the bound never cuts it short. -/
def Obligations.UnboundedRunEnds : Prop :=
  ∀ s : State, (hostRun none s).1 ≠ .budgetExhausted ∧
    ∀ n, 0x10000 - s.pc.toNat ≤ n → hostRun (some n) s = hostRun none s

/-- R112 (decisions D3 and D8): a run that returns `Halted` leaves `PC` one past a byte 0x00, with no wrap, the block
`Halted` and `FAULT` as it was. -/
def Obligations.HaltedRunStopsPastBrk : Prop :=
  ∀ (budget : Option Nat) (s t : State), hostRun budget s = (.halted, t) →
    t.runState = .halted ∧ t.fault = s.fault ∧
    ∃ q : Addr, Memory.read8 s.mem q = 0x00 ∧ t.pc.toNat = q.toNat + 1

/-- R31, R126, R128, R156 (decisions D4 to D7): a run that returns a fault leaves the block `Faulted` with that very record; a
run that did not start in `Faulted` reports the opcode byte at the record's address, where `PC` stands. -/
def Obligations.FaultedRunReportsRecord : Prop :=
  ∀ (budget : Option Nat) (s t : State) (f : Option FaultRecord), hostRun budget s = (.fault f, t) →
    t.runState = .faulted ∧ t.fault = f ∧
    (s.runState ≠ .faulted → ∃ r, f = some r ∧ r.opcode = Memory.read8 s.mem r.pc ∧ r.pc = t.pc ∧
      recordJustified r = true)

/-- R24, R29, R49 over whole runs (decision D12 for the reserved bits): whatever the program and the budget, a run changes
no byte of memory and no reserved status bit. -/
def Obligations.RunKeepsMemoryAndReservedBits : Prop :=
  ∀ (budget : Option Nat) (s : State),
    (hostRun budget s).2.mem = s.mem ∧
    ∀ k, k ≠ 1 → k ≠ 7 → (hostRun budget s).2.status.getLsbD k = s.status.getLsbD k

/-- R157 with decision D19: `load_and_run` is `load`, `reset` and `run`; where `load` fails, its error is returned and
neither of the others happens. -/
def Obligations.LoadAndRunComposes : Prop :=
  ∀ (program : List Byte) (budget : Option Nat) (s : State),
    (program.length > 0x8000 →
      perform (.loadAndRun program budget) s = (.error (.imageTooLarge program.length), s)) ∧
    (program.length ≤ 0x8000 →
      perform (.loadAndRun program budget) s =
        (.ran (hostRun budget (hostReset (perform (.load program) s).2)).1,
          performAll [.load program, .reset, .run budget] s))

/-- How the model places a program's instruction for a test (notes/assumptions/2.md): the table word that decodes to `i`,
placed where the next step fetches, is what that step runs. -/
def Obligations.PlacedWordRunsNext : Prop :=
  ∀ (s : State) (nbits w : Nat) (i : Instr), Memory.wf s.mem = true → s.pc ≠ 0xFFFF →
    decodeTableWord nbits w = some i →
    step (s.withFetchWord nbits w) = exec i (s.withFetchWord nbits w)
end

