-- ==== Sys2Proof/Laws/State.lean ====
section
/-! SUPPORT. One lemma per field per update of the state, so that no later proof unfolds a record update; and the
laws of the shared operations that write registers (Machine/Ops.lean, Operands.lean, Flags.lean). -/

namespace Sys2Proof.Machine

@[simp] theorem State.setA_a (s : State) (v : Byte) : (s.setA v).a = v := rfl
@[simp] theorem State.setA_x (s : State) (v : Byte) : (s.setA v).x = s.x := rfl
@[simp] theorem State.setA_status (s : State) (v : Byte) : (s.setA v).status = s.status := rfl
@[simp] theorem State.setA_pc (s : State) (v : Byte) : (s.setA v).pc = s.pc := rfl
@[simp] theorem State.setA_mem (s : State) (v : Byte) : (s.setA v).mem = s.mem := rfl
@[simp] theorem State.setA_runState (s : State) (v : Byte) : (s.setA v).runState = s.runState := rfl
@[simp] theorem State.setA_fault (s : State) (v : Byte) : (s.setA v).fault = s.fault := rfl

@[simp] theorem State.setX_a (s : State) (v : Byte) : (s.setX v).a = s.a := rfl
@[simp] theorem State.setX_x (s : State) (v : Byte) : (s.setX v).x = v := rfl
@[simp] theorem State.setX_status (s : State) (v : Byte) : (s.setX v).status = s.status := rfl
@[simp] theorem State.setX_pc (s : State) (v : Byte) : (s.setX v).pc = s.pc := rfl
@[simp] theorem State.setX_mem (s : State) (v : Byte) : (s.setX v).mem = s.mem := rfl
@[simp] theorem State.setX_runState (s : State) (v : Byte) : (s.setX v).runState = s.runState := rfl
@[simp] theorem State.setX_fault (s : State) (v : Byte) : (s.setX v).fault = s.fault := rfl

@[simp] theorem State.setStatus_a (s : State) (v : Byte) : (s.setStatus v).a = s.a := rfl
@[simp] theorem State.setStatus_x (s : State) (v : Byte) : (s.setStatus v).x = s.x := rfl
@[simp] theorem State.setStatus_status (s : State) (v : Byte) : (s.setStatus v).status = v := rfl
@[simp] theorem State.setStatus_pc (s : State) (v : Byte) : (s.setStatus v).pc = s.pc := rfl
@[simp] theorem State.setStatus_mem (s : State) (v : Byte) : (s.setStatus v).mem = s.mem := rfl
@[simp] theorem State.setStatus_runState (s : State) (v : Byte) : (s.setStatus v).runState = s.runState := rfl
@[simp] theorem State.setStatus_fault (s : State) (v : Byte) : (s.setStatus v).fault = s.fault := rfl

@[simp] theorem State.setPc_a (s : State) (v : Addr) : (s.setPc v).a = s.a := rfl
@[simp] theorem State.setPc_x (s : State) (v : Addr) : (s.setPc v).x = s.x := rfl
@[simp] theorem State.setPc_status (s : State) (v : Addr) : (s.setPc v).status = s.status := rfl
@[simp] theorem State.setPc_pc (s : State) (v : Addr) : (s.setPc v).pc = v := rfl
@[simp] theorem State.setPc_mem (s : State) (v : Addr) : (s.setPc v).mem = s.mem := rfl
@[simp] theorem State.setPc_runState (s : State) (v : Addr) : (s.setPc v).runState = s.runState := rfl
@[simp] theorem State.setPc_fault (s : State) (v : Addr) : (s.setPc v).fault = s.fault := rfl

@[simp] theorem State.setMem_a (s : State) (m : Memory) : (s.setMem m).a = s.a := rfl
@[simp] theorem State.setMem_x (s : State) (m : Memory) : (s.setMem m).x = s.x := rfl
@[simp] theorem State.setMem_status (s : State) (m : Memory) : (s.setMem m).status = s.status := rfl
@[simp] theorem State.setMem_pc (s : State) (m : Memory) : (s.setMem m).pc = s.pc := rfl
@[simp] theorem State.setMem_mem (s : State) (m : Memory) : (s.setMem m).mem = m := rfl
@[simp] theorem State.setMem_runState (s : State) (m : Memory) : (s.setMem m).runState = s.runState := rfl
@[simp] theorem State.setMem_fault (s : State) (m : Memory) : (s.setMem m).fault = s.fault := rfl

@[simp] theorem State.setRunState_a (s : State) (r : RunState) : (s.setRunState r).a = s.a := rfl
@[simp] theorem State.setRunState_x (s : State) (r : RunState) : (s.setRunState r).x = s.x := rfl
@[simp] theorem State.setRunState_status (s : State) (r : RunState) : (s.setRunState r).status = s.status := rfl
@[simp] theorem State.setRunState_pc (s : State) (r : RunState) : (s.setRunState r).pc = s.pc := rfl
@[simp] theorem State.setRunState_mem (s : State) (r : RunState) : (s.setRunState r).mem = s.mem := rfl
@[simp] theorem State.setRunState_runState (s : State) (r : RunState) : (s.setRunState r).runState = r := rfl
@[simp] theorem State.setRunState_fault (s : State) (r : RunState) : (s.setRunState r).fault = s.fault := rfl

@[simp] theorem State.setFault_a (s : State) (f : Option FaultRecord) : (s.setFault f).a = s.a := rfl
@[simp] theorem State.setFault_x (s : State) (f : Option FaultRecord) : (s.setFault f).x = s.x := rfl
@[simp] theorem State.setFault_status (s : State) (f : Option FaultRecord) : (s.setFault f).status = s.status := rfl
@[simp] theorem State.setFault_pc (s : State) (f : Option FaultRecord) : (s.setFault f).pc = s.pc := rfl
@[simp] theorem State.setFault_mem (s : State) (f : Option FaultRecord) : (s.setFault f).mem = s.mem := rfl
@[simp] theorem State.setFault_runState (s : State) (f : Option FaultRecord) : (s.setFault f).runState = s.runState := rfl
@[simp] theorem State.setFault_fault (s : State) (f : Option FaultRecord) : (s.setFault f).fault = f := rfl

/-! ### Registers by operand -/

@[simp] theorem readReg_a (s : State) : s.readReg .a = s.a := rfl
@[simp] theorem readReg_x (s : State) : s.readReg .x = s.x := rfl
@[simp] theorem operand_imm_value (v : Byte) (s : State) : (Operand.imm v).value s = v := rfl
@[simp] theorem operand_reg_value (r : DataReg) (s : State) : (Operand.reg r).value s = s.readReg r := rfl
@[simp] theorem aluPass_eq (v : Byte) : aluPass v = v := rfl

@[simp] theorem writeReg_read (s : State) (r : DataReg) (v : Byte) : (s.writeReg r v).readReg r = v := by
  cases r <;> rfl

/-- Writing a register leaves the other one alone. -/
theorem writeReg_read_other (s : State) {r q : DataReg} (v : Byte) (h : q ≠ r) :
    (s.writeReg r v).readReg q = s.readReg q := by
  cases r <;> cases q <;> first | rfl | exact absurd rfl h

@[simp] theorem writeReg_status (s : State) (r : DataReg) (v : Byte) : (s.writeReg r v).status = s.status := by
  cases r <;> rfl
@[simp] theorem writeReg_pc (s : State) (r : DataReg) (v : Byte) : (s.writeReg r v).pc = s.pc := by
  cases r <;> rfl
@[simp] theorem writeReg_mem (s : State) (r : DataReg) (v : Byte) : (s.writeReg r v).mem = s.mem := by
  cases r <;> rfl
@[simp] theorem writeReg_runState (s : State) (r : DataReg) (v : Byte) : (s.writeReg r v).runState = s.runState := by
  cases r <;> rfl
@[simp] theorem writeReg_fault (s : State) (r : DataReg) (v : Byte) : (s.writeReg r v).fault = s.fault := by
  cases r <;> rfl

/-! ### Fault entry: everything `raiseFault` does -/

@[simp] theorem raiseFault_a (kind : FaultKind) (op : Byte) (s : State) :
    (raiseFault kind op s).a = s.a := rfl
@[simp] theorem raiseFault_x (kind : FaultKind) (op : Byte) (s : State) :
    (raiseFault kind op s).x = s.x := rfl
@[simp] theorem raiseFault_status (kind : FaultKind) (op : Byte) (s : State) :
    (raiseFault kind op s).status = s.status := rfl
@[simp] theorem raiseFault_pc (kind : FaultKind) (op : Byte) (s : State) :
    (raiseFault kind op s).pc = s.pc := rfl
@[simp] theorem raiseFault_mem (kind : FaultKind) (op : Byte) (s : State) :
    (raiseFault kind op s).mem = s.mem := rfl
@[simp] theorem raiseFault_runState (kind : FaultKind) (op : Byte) (s : State) :
    (raiseFault kind op s).runState = .faulted := rfl
@[simp] theorem raiseFault_fault (kind : FaultKind) (op : Byte) (s : State) :
    (raiseFault kind op s).fault = some ⟨kind, op, s.pc⟩ := rfl

/-! ### Retirement: everything `retireResult` and `retireHalt` do -/

@[simp] theorem retireResult_read (r : DataReg) (v : Byte) (next : Addr) (s : State) :
    (retireResult r v next s).readReg r = v := by
  cases r <;> rfl

/-- The register that is not the result register keeps its value. -/
theorem retireResult_read_other {r q : DataReg} (v : Byte) (next : Addr) (s : State) (h : q ≠ r) :
    (retireResult r v next s).readReg q = s.readReg q := by
  cases r <;> cases q <;> first | rfl | exact absurd rfl h

@[simp] theorem retireResult_a_a (v : Byte) (next : Addr) (s : State) : (retireResult .a v next s).a = v := rfl
@[simp] theorem retireResult_a_x (v : Byte) (next : Addr) (s : State) : (retireResult .a v next s).x = s.x := rfl
@[simp] theorem retireResult_x_a (v : Byte) (next : Addr) (s : State) : (retireResult .x v next s).a = s.a := rfl
@[simp] theorem retireResult_x_x (v : Byte) (next : Addr) (s : State) : (retireResult .x v next s).x = v := rfl

@[simp] theorem retireResult_status (r : DataReg) (v : Byte) (next : Addr) (s : State) :
    (retireResult r v next s).status = flagsZN s.status v := by
  cases r <;> rfl
@[simp] theorem retireResult_pc (r : DataReg) (v : Byte) (next : Addr) (s : State) :
    (retireResult r v next s).pc = next := by
  cases r <;> rfl
@[simp] theorem retireResult_mem (r : DataReg) (v : Byte) (next : Addr) (s : State) :
    (retireResult r v next s).mem = s.mem := by
  cases r <;> rfl
@[simp] theorem retireResult_runState (r : DataReg) (v : Byte) (next : Addr) (s : State) :
    (retireResult r v next s).runState = s.runState := by
  cases r <;> rfl
@[simp] theorem retireResult_fault (r : DataReg) (v : Byte) (next : Addr) (s : State) :
    (retireResult r v next s).fault = s.fault := by
  cases r <;> rfl

@[simp] theorem retireHalt_a (next : Addr) (s : State) : (retireHalt next s).a = s.a := rfl
@[simp] theorem retireHalt_x (next : Addr) (s : State) : (retireHalt next s).x = s.x := rfl
@[simp] theorem retireHalt_status (next : Addr) (s : State) : (retireHalt next s).status = s.status := rfl
@[simp] theorem retireHalt_pc (next : Addr) (s : State) : (retireHalt next s).pc = next := rfl
@[simp] theorem retireHalt_mem (next : Addr) (s : State) : (retireHalt next s).mem = s.mem := rfl
@[simp] theorem retireHalt_runState (next : Addr) (s : State) : (retireHalt next s).runState = .halted := rfl
@[simp] theorem retireHalt_fault (next : Addr) (s : State) : (retireHalt next s).fault = s.fault := rfl

/-! ### The advance of `PC` -/

/-- At 0xFFFF the advance raises `PcOverflow`, whatever would follow. -/
theorem advance_top (op : Byte) (s : State) (k : Addr → State) :
    advance op Config.topAddr s k = raiseFault .pcOverflow op s := if_pos rfl

/-- Below 0xFFFF the instruction goes on with the next address. -/
theorem advance_below {addr : Addr} (op : Byte) (s : State) (k : Addr → State) (h : addr ≠ Config.topAddr) :
    advance op addr s k = k (addr + 1) := if_neg h

/-- An address other than 0xFFFF has an exact successor. -/
theorem toNat_succ {addr : Addr} (h : addr ≠ Config.topAddr) : (addr + 1).toNat = addr.toNat + 1 := by
  have hn : addr.toNat ≠ 0xFFFF := fun e => h (BitVec.eq_of_toNat_eq e)
  have hl := addr.isLt
  rw [BitVec.toNat_add, show (1 : Addr).toNat = 1 from rfl]
  exact Nat.mod_eq_of_lt (by omega)

end Sys2Proof.Machine
end

