-- ==== Sys2Proof/Laws/Exec.lean ====
section
/-! SUPPORT. What each meaning answers, one lemma for each case, and what a step can do, once: every proof about a run
goes through `step_cases`. -/

namespace Sys2Proof.Machine

/-! ### The meanings, where the instruction's bytes fit below the top of memory -/

theorem exec_lda_fits {s : State} (imm8 : Byte) (h : s.pc ≠ Config.topAddr) (h' : s.pc + 1 ≠ Config.topAddr) :
    exec (.lda imm8) s = .next (retireResult .a imm8 (s.pc + 1 + 1) s) := by
  simp only [exec, execLda, advance_below _ _ _ h, advance_below _ _ _ h', aluPass_eq, operand_imm_value]

theorem exec_tax_fits {s : State} (h : s.pc ≠ Config.topAddr) :
    exec .tax s = .next (retireResult .x s.a (s.pc + 1) s) := by
  simp only [exec, execTax, advance_below _ _ _ h, aluPass_eq, operand_reg_value, readReg_a]

theorem exec_inx_fits {s : State} (h : s.pc ≠ Config.topAddr) :
    exec .inx s = .next (retireResult .x (aluInc8 s.x) (s.pc + 1) s) := by
  simp only [exec, execInx, advance_below _ _ _ h, operand_reg_value, readReg_x]

theorem exec_brk_fits {s : State} (h : s.pc ≠ Config.topAddr) :
    exec .brk s = .next (retireHalt (s.pc + 1) s) := by
  simp only [exec, execBrk, advance_below _ _ _ h]

theorem exec_unimplemented_fits {s : State} (op : Byte) (h : s.pc ≠ Config.topAddr) :
    exec (.unimplemented op) s = .next (raiseFault .unimplementedOpcode op s) := by
  simp only [exec, execUnimplemented, advance_below _ _ _ h]

/-! ### The meanings at the top of memory -/

theorem exec_top {s : State} (i : Instr) (h : s.pc = Config.topAddr) :
    exec i s = .next (raiseFault .pcOverflow (opcodeOf i) s) := by
  cases i <;> simp only [exec, execLda, execTax, execInx, execBrk, execUnimplemented, h, advance_top, opcodeOf]

theorem exec_lda_operand_top {s : State} (imm8 : Byte) (h : s.pc ≠ Config.topAddr) (h' : s.pc + 1 = Config.topAddr) :
    exec (.lda imm8) s = .next (raiseFault .pcOverflow opLda s) := by
  simp only [exec, execLda, advance_below _ _ _ h, h', advance_top]

/-! ### Every case of a meaning -/

/-- What a meaning can answer: a justified fault entry, the retirement of a result, or the halt. -/
inductive ExecCase (i : Instr) (s : State) : State → Prop where
  | overflow (h : s.pc = Config.topAddr ∨ (s.pc ≠ Config.topAddr ∧ s.pc + 1 = Config.topAddr ∧ opcodeOf i = opLda)) :
      ExecCase i s (raiseFault .pcOverflow (opcodeOf i) s)
  | noSuchOpcode (op : Byte) (hi : i = .unimplemented op) (h : s.pc ≠ Config.topAddr) :
      ExecCase i s (raiseFault .unimplementedOpcode op s)
  | lda (imm8 : Byte) (hi : i = .lda imm8) (h : s.pc ≠ Config.topAddr) (h' : s.pc + 1 ≠ Config.topAddr) :
      ExecCase i s (retireResult .a imm8 (s.pc + 1 + 1) s)
  | tax (hi : i = .tax) (h : s.pc ≠ Config.topAddr) : ExecCase i s (retireResult .x s.a (s.pc + 1) s)
  | inx (hi : i = .inx) (h : s.pc ≠ Config.topAddr) : ExecCase i s (retireResult .x (aluInc8 s.x) (s.pc + 1) s)
  | brk (hi : i = .brk) (h : s.pc ≠ Config.topAddr) : ExecCase i s (retireHalt (s.pc + 1) s)

/-- Every meaning answers a next state, and it is one of those cases. -/
theorem exec_cases (i : Instr) (s : State) : ∃ t, exec i s = .next t ∧ ExecCase i s t := by
  by_cases h : s.pc = Config.topAddr
  · exact ⟨_, exec_top i h, .overflow (.inl h)⟩
  cases i with
  | brk => exact ⟨_, exec_brk_fits h, .brk rfl h⟩
  | lda imm8 =>
    by_cases h' : s.pc + 1 = Config.topAddr
    · exact ⟨_, exec_lda_operand_top imm8 h h', .overflow (.inr ⟨h, h', rfl⟩)⟩
    · exact ⟨_, exec_lda_fits imm8 h h', .lda imm8 rfl h h'⟩
  | tax => exact ⟨_, exec_tax_fits h, .tax rfl h⟩
  | inx => exact ⟨_, exec_inx_fits h, .inx rfl h⟩
  | unimplemented op => exact ⟨_, exec_unimplemented_fits op h, .noSuchOpcode op rfl h⟩

/-! ### The step -/

/-- The fetch finds an instruction whose opcode is the byte at `PC`, or LDA's opcode stands at 0xFFFF. -/
theorem fetch_cases (s : State) :
    (∃ i, fetch s = .ok i ∧ WellFormed i = true ∧ opcodeOf i = Memory.read8 s.mem s.pc) ∨
      (s.pc = Config.topAddr ∧ Memory.read8 s.mem s.pc = opLda ∧
        fetch s = .error (raiseFault .pcOverflow (Memory.read8 s.mem s.pc) s)) := by
  generalize hop : Memory.read8 s.mem s.pc = op
  have hwf : op ≠ opBrk → op ≠ opLda → op ≠ opTax → op ≠ opInx → WellFormed (.unimplemented op) = true := by
    intro hb hl ht hx
    simp only [opBrk, opLda, opTax, opInx] at hb hl ht hx
    simp only [WellFormed, definedOpcode, Bool.not_eq_true', Bool.or_eq_false_iff, beq_eq_false_iff_ne]
    exact ⟨⟨⟨hb, hl⟩, ht⟩, hx⟩
  by_cases h : s.pc = Config.topAddr
  · have hw : fetchWindow s = [op] := by simp only [fetchWindow, if_pos h, hop]
    simp only [fetch, hw, decode, hop]
    split_ifs with hb hl ht hx
    · exact .inl ⟨_, rfl, rfl, hb.symm⟩
    · exact .inr ⟨h, hl, rfl⟩
    · exact .inl ⟨_, rfl, rfl, ht.symm⟩
    · exact .inl ⟨_, rfl, rfl, hx.symm⟩
    · exact .inl ⟨_, rfl, hwf hb hl ht hx, rfl⟩
  · have hw : fetchWindow s = [op, Memory.read8 s.mem (s.pc + 1)] := by simp only [fetchWindow, if_neg h, hop]
    simp only [fetch, hw, decode]
    split_ifs with hb hl ht hx
    · exact .inl ⟨_, rfl, rfl, hb.symm⟩
    · exact .inl ⟨_, rfl, rfl, hl.symm⟩
    · exact .inl ⟨_, rfl, rfl, ht.symm⟩
    · exact .inl ⟨_, rfl, rfl, hx.symm⟩
    · exact .inl ⟨_, rfl, hwf hb hl ht hx, rfl⟩

/-- Everything a step can do: it answers a next state only from `Ready`, and that is what the meaning of the
instruction at `PC` answers, or the fault of LDA's opcode at 0xFFFF, which every meaning would raise there too. -/
theorem step_cases {s t : State} (h : step s = .next t) :
    s.runState = .ready ∧
      ∃ i, WellFormed i = true ∧ opcodeOf i = Memory.read8 s.mem s.pc ∧ ExecCase i s t := by
  unfold step at h
  cases hr : s.runState with
  | halted => simp [stepGuard, hr] at h
  | faulted => simp [stepGuard, hr] at h
  | ready =>
    refine ⟨rfl, ?_⟩
    simp only [stepGuard, hr] at h
    obtain ⟨i, hf, hw, hop⟩ | ⟨hpc, hlda, hf⟩ := fetch_cases s
    · obtain ⟨u, hu, hc⟩ := exec_cases i s
      rw [hf] at h
      simp only [hu, Host.Outcome.next.injEq] at h
      exact ⟨i, hw, hop, h ▸ hc⟩
    · rw [hf] at h
      simp only [Host.Outcome.next.injEq] at h
      refine ⟨.lda 0, rfl, hlda.symm, ?_⟩
      rw [← h, hlda]
      exact ExecCase.overflow (i := .lda 0) (.inl hpc)

end Sys2Proof.Machine
end

