-- ==== Sys2Proof/Laws/Flags.lean ====
section
/-! SUPPORT. The flag update in one expression (spec/40_alu.md R82, "Equivalently"). -/

namespace Sys2Proof.Machine

/-- R82: the kept bits are those of the mask 0x7D, Z says whether `v` is zero, N is bit 7 of `v`. -/
theorem flagsZN_closed_form (s v : Byte) :
    flagsZN s v = (s &&& 0x7D) ||| (if v = 0x00 then 0x02 else 0x00) ||| (v &&& 0x80) := by
  have hv : v &&& 0x80 = if v.getLsbD 7 = true then 0x80 else 0x00 := by
    revert v; decide
  have h0 : v = 0x00 → v.getLsbD 7 = false := by rintro rfl; rfl
  rw [hv]
  unfold flagsZN
  by_cases hz : v = 0x00
  · simp only [hz, if_true]
    revert s; decide
  · simp only [if_neg hz]
    by_cases hn : v.getLsbD 7 = true
    · simp only [if_pos hn]
      revert s; decide
    · simp only [if_neg hn]
      revert s; decide

end Sys2Proof.Machine
end

