-- ==== Sys2Proof/Laws/Memory.lean ====
section
/-! SUPPORT. The laws of memory (Machine/Ops.lean): what a byte reads as after a write, and that every operation
keeps the canonical form. -/

namespace Sys2Proof.Machine

/-! ### The canonical form -/

theorem Memory.wfFrom_cons {lo k : Nat} {b : Byte} {rest : Memory} :
    Memory.wfFrom lo ((k, b) :: rest) = true ↔
      lo ≤ k ∧ k < Config.memSize ∧ b ≠ Memory.unlisted ∧ Memory.wfFrom (k + 1) rest = true := by
  simp [Memory.wfFrom, and_assoc]

/-- A canonical list from `lo` on is one from any lower address on. -/
theorem Memory.wfFrom_mono {lo lo' : Nat} {m : Memory} (h : lo' ≤ lo) (hm : Memory.wfFrom lo m = true) :
    Memory.wfFrom lo' m = true := by
  cases m with
  | nil => rfl
  | cons c rest =>
    obtain ⟨k, b⟩ := c
    rw [Memory.wfFrom_cons] at hm ⊢
    exact ⟨h.trans hm.1, hm.2⟩

/-- Below its first address a canonical list holds nothing. -/
theorem Memory.get_below {m : Memory} {lo n : Nat} (hm : Memory.wfFrom lo m = true) (h : n < lo) :
    Memory.get m n = Memory.unlisted := by
  induction m generalizing lo with
  | nil => rfl
  | cons c rest ih =>
    obtain ⟨k, b⟩ := c
    rw [Memory.wfFrom_cons] at hm
    have hk : k ≠ n := by omega
    simp only [Memory.get, if_neg hk]
    exact ih hm.2.2.2 (by omega)

/-! ### Reading after writing one byte -/

/-- The byte written reads as written. -/
theorem Memory.get_put_same {m : Memory} {lo n : Nat} (v : Byte) (hm : Memory.wfFrom lo m = true) :
    Memory.get (Memory.put m n v) n = v := by
  induction m generalizing lo with
  | nil =>
    by_cases hv : v = Memory.unlisted
    · simp [Memory.put, Memory.get, hv]
    · simp [Memory.put, Memory.get, hv]
  | cons c rest ih =>
    obtain ⟨k, b⟩ := c
    have hc := Memory.wfFrom_cons.mp hm
    rcases Nat.lt_trichotomy n k with hlt | rfl | hgt
    · by_cases hv : v = Memory.unlisted
      · have hread := Memory.get_below (Memory.wfFrom_mono (Nat.le_refl k) (Memory.wfFrom_cons.mpr ⟨le_refl k, hc.2⟩)) hlt
        simp only [Memory.put, if_pos hlt, if_pos hv]
        rw [hread, hv]
      · simp [Memory.put, if_pos hlt, if_neg hv, Memory.get]
    · by_cases hv : v = Memory.unlisted
      · have hread := Memory.get_below hc.2.2.2 (Nat.lt_succ_self n)
        simp only [Memory.put, Nat.lt_irrefl, if_false, if_true, if_pos hv]
        rw [hread, hv]
      · simp [Memory.put, if_neg hv, Memory.get]
    · have hnk : ¬ n < k := by omega
      have hne : n ≠ k := by omega
      simp only [Memory.put, if_neg hnk, if_neg hne, Memory.get, if_neg (Ne.symm hne)]
      exact ih hc.2.2.2

/-- Every other byte reads as before. -/
theorem Memory.get_put_other (m : Memory) {n a : Nat} (v : Byte) (h : a ≠ n) :
    Memory.get (Memory.put m n v) a = Memory.get m a := by
  induction m with
  | nil =>
    by_cases hv : v = Memory.unlisted
    · simp [Memory.put, hv]
    · simp [Memory.put, hv, Memory.get, Ne.symm h]
  | cons c rest ih =>
    obtain ⟨k, b⟩ := c
    rcases Nat.lt_trichotomy n k with hlt | rfl | hgt
    · by_cases hv : v = Memory.unlisted
      · simp [Memory.put, hlt, hv]
      · simp [Memory.put, hlt, hv, Memory.get, Ne.symm h]
    · by_cases hv : v = Memory.unlisted
      · simp [Memory.put, hv, Memory.get, Ne.symm h]
      · simp [Memory.put, hv, Memory.get, Ne.symm h]
    · have hnk : ¬ n < k := by omega
      have hne : n ≠ k := by omega
      simp only [Memory.put, if_neg hnk, if_neg hne, Memory.get, ih]

/-! ### Writing keeps the canonical form -/

theorem Memory.put_wfFrom {m : Memory} {lo n : Nat} (v : Byte) (hm : Memory.wfFrom lo m = true) (hlo : lo ≤ n)
    (hn : n < Config.memSize) : Memory.wfFrom lo (Memory.put m n v) = true := by
  induction m generalizing lo with
  | nil =>
    by_cases hv : v = Memory.unlisted
    · simp [Memory.put, hv, Memory.wfFrom]
    · simp only [Memory.put, if_neg hv]
      exact Memory.wfFrom_cons.mpr ⟨hlo, hn, hv, rfl⟩
  | cons c rest ih =>
    obtain ⟨k, b⟩ := c
    have hc := Memory.wfFrom_cons.mp hm
    rcases Nat.lt_trichotomy n k with hlt | rfl | hgt
    · by_cases hv : v = Memory.unlisted
      · simpa only [Memory.put, if_pos hlt, if_pos hv] using hm
      · simp only [Memory.put, if_pos hlt, if_neg hv]
        exact Memory.wfFrom_cons.mpr ⟨hlo, hn, hv, Memory.wfFrom_cons.mpr ⟨hlt, hc.2⟩⟩
    · by_cases hv : v = Memory.unlisted
      · simp only [Memory.put, Nat.lt_irrefl, if_false, if_true, if_pos hv]
        exact Memory.wfFrom_mono (by omega) hc.2.2.2
      · simp only [Memory.put, Nat.lt_irrefl, if_false, if_true, if_neg hv]
        exact Memory.wfFrom_cons.mpr ⟨hlo, hn, hv, hc.2.2.2⟩
    · have hnk : ¬ n < k := by omega
      have hne : n ≠ k := by omega
      simp only [Memory.put, if_neg hnk, if_neg hne]
      exact Memory.wfFrom_cons.mpr ⟨hc.1, hc.2.1, hc.2.2.1, ih hc.2.2.2 hgt⟩

theorem Memory.put_wf {m : Memory} {n : Nat} (v : Byte) (hm : Memory.wf m = true) (hn : n < Config.memSize) :
    Memory.wf (Memory.put m n v) = true :=
  Memory.put_wfFrom v hm (Nat.zero_le n) hn

theorem Memory.write8_wf {m : Memory} (addr : Addr) (v : Byte) (hm : Memory.wf m = true) :
    Memory.wf (Memory.write8 m addr v) = true :=
  Memory.put_wf v hm addr.isLt

theorem Memory.copyFrom_wf {m : Memory} {n : Nat} {bytes : List Byte} (hm : Memory.wf m = true)
    (hn : n + bytes.length ≤ Config.memSize) : Memory.wf (Memory.copyFrom m n bytes) = true := by
  induction bytes generalizing m n with
  | nil => exact hm
  | cons b bs ih =>
    rw [List.length_cons] at hn
    exact ih (Memory.put_wf b hm (by omega)) (by omega)

/-- `write16` answers only a canonical memory. -/
theorem Memory.write16_wf {m m' : Memory} {addr : Addr} {v : BitVec 16} (hm : Memory.wf m = true)
    (h : Memory.write16 m addr v = .ok m') : Memory.wf m' = true := by
  unfold Memory.write16 at h
  split at h
  · cases h
  · cases h
    exact Memory.write8_wf _ _ (Memory.write8_wf _ _ hm)

/-- `load_block` answers only a canonical memory. -/
theorem Memory.loadBlock_wf {m m' : Memory} {base : Addr} {bytes : List Byte} (hm : Memory.wf m = true)
    (h : Memory.loadBlock m base bytes = .ok m') : Memory.wf m' = true := by
  unfold Memory.loadBlock at h
  split at h
  · cases h
  · cases h
    exact Memory.copyFrom_wf hm (by omega)

/-! ### The copy of `load_block` -/

/-- Outside the copied range every byte reads as before. -/
theorem Memory.get_copyFrom_outside (m : Memory) {n a : Nat} (bytes : List Byte)
    (h : a < n ∨ n + bytes.length ≤ a) : Memory.get (Memory.copyFrom m n bytes) a = Memory.get m a := by
  induction bytes generalizing m n with
  | nil => rfl
  | cons b bs ih =>
    rw [List.length_cons] at h
    rw [Memory.copyFrom, ih _ (by omega), Memory.get_put_other m b (by omega)]

/-- Byte `k` of the copied range reads as byte `k` of the source. -/
theorem Memory.get_copyFrom_inside {m : Memory} {n k : Nat} {bytes : List Byte} (hm : Memory.wf m = true)
    (hn : n + bytes.length ≤ Config.memSize) (hk : k < bytes.length) :
    Memory.get (Memory.copyFrom m n bytes) (n + k) = bytes[k] := by
  induction bytes generalizing m n k with
  | nil => exact absurd hk (Nat.not_lt_zero k)
  | cons b bs ih =>
    rw [List.length_cons] at hn hk
    rw [Memory.copyFrom]
    cases k with
    | zero => exact (Memory.get_copyFrom_outside _ bs (.inl (Nat.lt_succ_self n))).trans (Memory.get_put_same b hm)
    | succ j =>
      rw [show n + (j + 1) = n + 1 + j by omega]
      exact ih (Memory.put_wf b hm (by omega)) (by omega) (by omega)

end Sys2Proof.Machine
end

