-- ==== Sys2Proof/Laws/PerInstr.lean ====
section
/-! SUPPORT. Laws over all instructions as syntax, one lemma per constructor (LAWS.json names the families). -/

namespace Sys2Proof.Laws

/-- The family EncodedLength: an encoded instruction is its opcode byte and, for 0xA9 alone, one operand byte
(spec/30_encoding.md R60, R65). -/
def EncodedLength.Statement (i : Instr) : Prop :=
  (encode i).head? = some (opcodeOf i) ∧
    (WellFormed i = true → (encode i).length = if opcodeOf i = opLda then 2 else 1)

theorem EncodedLength.brk : EncodedLength.Statement .brk := ⟨rfl, fun _ => rfl⟩

theorem EncodedLength.lda (imm8 : Byte) : EncodedLength.Statement (.lda imm8) := ⟨rfl, fun _ => rfl⟩

theorem EncodedLength.tax : EncodedLength.Statement .tax := ⟨rfl, fun _ => rfl⟩

theorem EncodedLength.inx : EncodedLength.Statement .inx := ⟨rfl, fun _ => rfl⟩

theorem EncodedLength.unimplemented (opcode : Byte) : EncodedLength.Statement (.unimplemented opcode) := by
  refine ⟨rfl, fun h => ?_⟩
  have hne : opcode ≠ opLda := by
    rintro rfl
    exact absurd h (by decide)
  simp [encode, opcodeOf, hne]

end Sys2Proof.Laws
end

