-- ==== Sys2Proof/Tests/Slice0.lean ====
section
/-! SUPPORT. The model's own tests. The expected results are those of spec/95_test_vectors.md (each named in its
comment) or read from the rule cited. The last part shows, for every obligation with hypotheses, a state and operands
that meet them. -/

namespace Sys2Proof.Tests

open Sys2Proof.Machine

/-- A `Ready` state with the given registers and bytes placed at `pc`. -/
def testState (a x status : Byte) (pc : Addr) (bytes : List Byte) : State :=
  { State.reset with a := a, x := x, status := status, pc := pc, mem := Memory.copyFrom [] pc.toNat bytes }

/-- The next state of an outcome, if it is one. -/
def nextOf : Host.Outcome State Fault Refusal → Option State
  | .next t => some t
  | .fault _ => none
  | .refused _ => none

/-- The registers, the run-state and the fault record after one step: what a row of the vectors lists. -/
def after (s : State) : Option (Observation × RunState × Option FaultRecord) :=
  (nextOf (step s)).map fun t => (hostObserve t, t.runState, t.fault)

/-! ### Well-formedness: an ill-formed term for the one check, the unimplemented row's byte (R64) -/

theorem test_wf_refuses_brk_byte : WellFormed (.unimplemented 0x00) = false := by decide
theorem test_wf_refuses_lda_byte : WellFormed (.unimplemented 0xA9) = false := by decide
theorem test_wf_refuses_tax_byte : WellFormed (.unimplemented 0xAA) = false := by decide
theorem test_wf_refuses_inx_byte : WellFormed (.unimplemented 0xE8) = false := by decide
theorem test_wf_accepts_nop_byte : WellFormed (.unimplemented 0xEA) = true := by decide

/-! ### Decoding: the words of R60 and R63, bit by bit -/

theorem test_decode_brk : decode [0b00000000] = .ok (.brk, []) := by decide
theorem test_decode_lda : decode [0b10101001, 0b11000000, 0xAA] = .ok (.lda 0xC0, [0xAA]) := by decide
theorem test_decode_tax : decode [0b10101010, 0x05] = .ok (.tax, [0x05]) := by decide
theorem test_decode_inx : decode [0b11101000] = .ok (.inx, []) := by decide
/-- F2, F3: the neighbours of the defined bytes, and 0xEA, are unimplemented. -/
theorem test_decode_unimplemented :
    decode [0xEA] = .ok (.unimplemented 0xEA, []) ∧ decode [0xA8] = .ok (.unimplemented 0xA8, []) ∧
      decode [0xAB] = .ok (.unimplemented 0xAB, []) ∧ decode [0xE7] = .ok (.unimplemented 0xE7, []) ∧
      decode [0xE9] = .ok (.unimplemented 0xE9, []) := by decide
theorem test_decode_empty : decode [] = .error .noOpcode := by decide
theorem test_decode_lda_cut_short : decode [0xA9] = .error .noOperand := by decide
/-- The table's numbering: the operand byte is bits 15 to 8; with 8 bits it is zero. -/
theorem test_decodeTableWord_lda :
    decodeTableWord 16 0x05A9 = some (.lda 0x05) ∧ decodeTableWord 8 0x05A9 = some (.lda 0x00) := by decide
/-- R64: 252 unimplemented bytes. -/
theorem test_unimplemented_count :
    ((List.range 256).filter fun n => !definedOpcode (BitVec.ofNat 8 n)).length = 252 := by
  decide +kernel

/-! ### Flags and ALU -/

/-- A1 to A9. -/
theorem test_flagsZN :
    flagsZN 0x00 0x00 = 0x02 ∧ flagsZN 0x00 0x7F = 0x00 ∧ flagsZN 0x00 0x80 = 0x80 ∧ flagsZN 0xFF 0x00 = 0x7F ∧
      flagsZN 0xFF 0x01 = 0x7D ∧ flagsZN 0xFF 0xFF = 0xFD ∧ flagsZN 0x82 0x01 = 0x00 ∧ flagsZN 0x02 0x80 = 0x80 ∧
      flagsZN 0x3C 0xFF = 0xBC := by decide
/-- A10. -/
theorem test_aluInc8 :
    aluInc8 0x00 = 0x01 ∧ aluInc8 0x7F = 0x80 ∧ aluInc8 0xFE = 0xFF ∧ aluInc8 0xFF = 0x00 := by decide

/-! ### One step of each instruction -/

/-- L4: the reserved bits are kept. -/
theorem test_lda_keeps_reserved_bits :
    after (testState 0x00 0x00 0xFF 0x8000 [0xA9, 0x01]) = some (⟨0x01, 0x00, 0x7D, 0x8002⟩, .ready, none) := by decide
/-- L6: the operand at 0xFFFF overflows. -/
theorem test_lda_overflows_at_FFFE :
    after (testState 0x11 0x22 0x00 0xFFFE [0xA9, 0x05]) =
      some (⟨0x11, 0x22, 0x00, 0xFFFE⟩, .faulted, some ⟨.pcOverflow, 0xA9, 0xFFFE⟩) := by decide
/-- T3: flags from the new `X`. -/
theorem test_tax_flags_from_new_x :
    after (testState 0x7F 0xFF 0x80 0x8000 [0xAA]) = some (⟨0x7F, 0x7F, 0x00, 0x8001⟩, .ready, none) := by decide
/-- T4. -/
theorem test_tax_negative :
    after (testState 0xFF 0x00 0x3C 0x8000 [0xAA]) = some (⟨0xFF, 0xFF, 0xBC, 0x8001⟩, .ready, none) := by decide
/-- I5: the wrap. -/
theorem test_inx_wraps :
    after (testState 0x00 0xFF 0xFF 0x8000 [0xE8]) = some (⟨0x00, 0x00, 0x7F, 0x8001⟩, .ready, none) := by decide
/-- I2: the sign change. -/
theorem test_inx_sets_negative :
    after (testState 0x00 0x7F 0x00 0x8000 [0xE8]) = some (⟨0x00, 0x80, 0x80, 0x8001⟩, .ready, none) := by decide
/-- B1. -/
theorem test_brk_halts :
    after (testState 0x12 0x34 0x82 0x8000 [0x00]) = some (⟨0x12, 0x34, 0x82, 0x8001⟩, .halted, none) := by decide
/-- B3. -/
theorem test_brk_overflows_at_FFFF :
    after (testState 0x00 0x00 0x00 0xFFFF [0x00]) =
      some (⟨0x00, 0x00, 0x00, 0xFFFF⟩, .faulted, some ⟨.pcOverflow, 0x00, 0xFFFF⟩) := by decide
/-- F2, with the report of its numeric code. -/
theorem test_unimplemented_faults :
    after (testState 0x00 0x00 0x00 0x8000 [0xEA]) =
        some (⟨0x00, 0x00, 0x00, 0x8000⟩, .faulted, some ⟨.unimplementedOpcode, 0xEA, 0x8000⟩) ∧
      FaultRecord.report ⟨.unimplementedOpcode, 0xEA, 0x8000⟩ = (.unimplementedOpcode, 1, 0xEA, 0x8000) := by decide
/-- F4: overflow is checked before decode. -/
theorem test_unimplemented_overflows_at_FFFF :
    after (testState 0x00 0x00 0x00 0xFFFF [0xFF]) =
      some (⟨0x00, 0x00, 0x00, 0xFFFF⟩, .faulted, some ⟨.pcOverflow, 0xFF, 0xFFFF⟩) := by decide
/-- L7: LDA's opcode at 0xFFFF, the one window `decode` rejects. -/
theorem test_lda_opcode_at_FFFF :
    after (testState 0x11 0x22 0x00 0xFFFF [0xA9]) =
      some (⟨0x11, 0x22, 0x00, 0xFFFF⟩, .faulted, some ⟨.pcOverflow, 0xA9, 0xFFFF⟩) := by decide
/-- A placed word runs as the first instruction after reset. -/
theorem test_placed_lda_runs_from_reset :
    after (State.reset.withFetchWord 16 0x80A9) = some (⟨0x80, 0x00, 0x80, 0x0002⟩, .ready, none) := by decide

/-! ### The memory controller -/

/-- M3, M8: little-endian, the full low byte, an odd address. -/
theorem test_write16_then_read :
    (Memory.write16 [] 0x0200 0x12F0).toOption.map (fun m => (Memory.read8 m 0x0200, Memory.read8 m 0x0201)) =
        some (0xF0, 0x12) ∧
      (Memory.read16 (Memory.write8 (Memory.write8 [] 0x0010 0x34) 0x0011 0x12) 0x0011).toOption = some 0x0012 := by
  decide
/-- M4, M5: the top of memory. -/
theorem test_read16_top :
    (Memory.write16 [] 0xFFFE 0xBEEF).toOption.map (fun m => (Memory.read16 m 0xFFFE).toOption) =
        some (some 0xBEEF) ∧
      (Memory.read16 [] 0xFFFF).toOption = none := by decide
/-- M7. -/
theorem test_loadBlock_top :
    (Memory.loadBlock [] 0xFFFF [0x01, 0x02]).toOption = none ∧
      (Memory.loadBlock [] 0xFFFE [0x01, 0x02]).toOption = some [(0xFFFE, 0x01), (0xFFFF, 0x02)] := by decide
/-- Writing what an unlisted address reads as removes the entry. -/
theorem test_write_zero_unlists : Memory.write8 [(0x0200, 0xF0)] 0x0200 0x00 = [] := by decide

/-! ### The host interface -/

/-- R4, R5: `load` then `reset`. -/
theorem test_load_then_reset :
    (hostLoad [0xA9, 0x01] State.construct).toOption.map (fun t => (t.mem, t.pc, (hostReset t).pc)) =
      some ([(0x8000, 0xA9), (0x8001, 0x01), (0xFFFD, 0x80)], 0x0000, 0x8000) := by decide
/-- R2: a run right after construction halts at 0x0001. -/
theorem test_run_after_construction :
    (hostRun (some 1) State.construct).1 = .halted ∧ (hostRun (some 1) State.construct).2.pc = 0x0001 := by decide
/-- F5, F6: the fault is returned again, and `reset` clears it. -/
theorem test_faulted_run_and_reset :
    hostRun none { State.reset with runState := .faulted, fault := some ⟨.unimplementedOpcode, 0x01, 0x8000⟩ } =
        (.fault (some ⟨.unimplementedOpcode, 0x01, 0x8000⟩),
          { State.reset with runState := .faulted, fault := some ⟨.unimplementedOpcode, 0x01, 0x8000⟩ }) ∧
      hostReset { State.reset with runState := .faulted, fault := some ⟨.unimplementedOpcode, 0x01, 0x8000⟩ } =
        State.reset := by decide
/-- R10: a run of budget 0 makes a halted block ready and takes no step. -/
theorem test_run_zero_resumes :
    hostRun (some 0) { State.reset with pc := 0x8001, runState := .halted } =
      (.budgetExhausted, { State.reset with pc := 0x8001 }) := by decide
/-- R159: observation of the register file. -/
theorem test_observe : hostObserve (testState 0x5A 0x0F 0x00 0x9000 []) = ⟨0x5A, 0x0F, 0x00, 0x9000⟩ := by decide

/-! ### Witnesses: the hypotheses of each obligation can be met, each clause at a boundary value -/

theorem witness_DecodeReadsOpcodeMap :
    ∀ op ∈ [(0x01 : Byte), 0xA8, 0xAB, 0xE7, 0xE9, 0xFF], op ≠ 0x00 ∧ op ≠ 0xA9 ∧ op ≠ 0xAA ∧ op ≠ 0xE8 := by decide
theorem witness_DecodeInvertsEncode : WellFormed (.unimplemented 0xFF) = true ∧ WellFormed (.lda 0xFF) = true := by
  decide
theorem witness_DecodedBytesAreTheEncoding : decode [0xA9, 0xFF, 0x00] = .ok (.lda 0xFF, [0x00]) := by decide
theorem witness_DecodeRejectsOnlyTruncation :
    decode [] = .error .noOpcode ∧ decode [0xA9] = .error .noOperand := by decide

/-- The clauses of the window: 0xFFFF, 0xFFFE, and the one that does not decode. -/
theorem witness_StepRunsDecodedInstruction :
    (testState 0 0 0 0xFFFF [0xAA]).runState = .ready ∧ (testState 0 0 0 0xFFFF [0xAA]).pc = 0xFFFF ∧
      decode (fetchWindow (testState 0 0 0 0xFFFF [0xAA])) = .ok (.tax, []) ∧
      (testState 0 0 0 0xFFFE [0xA9, 0x05]).runState = .ready ∧ (testState 0 0 0 0xFFFE [0xA9, 0x05]).pc ≠ 0xFFFF ∧
      decode (fetchWindow (testState 0 0 0 0xFFFE [0xA9, 0x05])) = .ok (.lda 0x05, []) ∧
      (testState 0 0 0 0xFFFF [0xA9]).runState = .ready ∧
      decode (fetchWindow (testState 0 0 0 0xFFFF [0xA9])) = .error .noOperand := by decide
theorem witness_StepDefinedExactlyInReady :
    State.reset.runState = .ready ∧ (State.reset.setRunState .halted).runState = .halted ∧
      (State.reset.setRunState .faulted).runState = .faulted := by decide

/-- First check: the opcode at 0xFFFF, unimplemented too. -/
theorem witness_StepFaultsInOrder_top :
    (testState 0 0 0 0xFFFF [0xFF]).runState = .ready ∧ (testState 0 0 0 0xFFFF [0xFF]).pc = 0xFFFF := by decide
/-- Second check, just below the top. -/
theorem witness_StepFaultsInOrder_unimplemented :
    (testState 0 0 0 0xFFFE [0xFF]).pc ≠ 0xFFFF ∧
      definedOpcode (Memory.read8 (testState 0 0 0 0xFFFE [0xFF]).mem (testState 0 0 0 0xFFFE [0xFF]).pc) = false := by
  decide
/-- Third check. -/
theorem witness_StepFaultsInOrder_operand :
    (testState 0 0 0 0xFFFE [0xA9]).pc = 0xFFFE ∧
      Memory.read8 (testState 0 0 0 0xFFFE [0xA9]).mem (testState 0 0 0 0xFFFE [0xA9]).pc = 0xA9 := by decide
/-- No check fails: LDA at 0xFFFD, TAX at 0xFFFE. -/
theorem witness_StepFaultsInOrder_none :
    ((testState 0 0 0 0xFFFD [0xA9]).pc ≠ 0xFFFF ∧
        definedOpcode (Memory.read8 (testState 0 0 0 0xFFFD [0xA9]).mem 0xFFFD) = true ∧
        ¬((testState 0 0 0 0xFFFD [0xA9]).pc = 0xFFFE ∧
          Memory.read8 (testState 0 0 0 0xFFFD [0xA9]).mem 0xFFFD = 0xA9)) ∧
      ((testState 0 0 0 0xFFFE [0xAA]).pc ≠ 0xFFFF ∧
        definedOpcode (Memory.read8 (testState 0 0 0 0xFFFE [0xAA]).mem 0xFFFE) = true ∧
        ¬((testState 0 0 0 0xFFFE [0xAA]).pc = 0xFFFE ∧
          Memory.read8 (testState 0 0 0 0xFFFE [0xAA]).mem 0xFFFE = 0xA9)) := by decide

theorem witness_FaultingStepIsPrecise :
    ∃ t, step (testState 0x11 0x22 0 0xFFFE [0xA9]) = .next t ∧ t.runState = .faulted := ⟨_, rfl, by decide⟩
theorem witness_PcAdvancesByLength :
    (∃ t, step (testState 0 0 0 0xFFFD [0xA9]) = .next t ∧ t.runState ≠ .faulted) ∧
      ∃ t, step (testState 0 0 0 0xFFFE [0x00]) = .next t ∧ t.runState ≠ .faulted :=
  ⟨⟨_, rfl, by decide⟩, _, rfl, by decide⟩
theorem witness_FlagsComeFromValueWritten :
    (∃ t, step (testState 0 0 0 0x8000 [0xA9, 0x80]) = .next t ∧ t.runState ≠ .faulted) ∧
      (∃ t, step (testState 0x80 0 0 0x8000 [0xAA]) = .next t ∧ t.runState ≠ .faulted) ∧
      (∃ t, step (testState 0 0xFF 0 0x8000 [0xE8]) = .next t ∧ t.runState ≠ .faulted) ∧
      ∃ t, step (testState 0 0 0x82 0x8000 [0x00]) = .next t ∧ t.runState ≠ .faulted :=
  ⟨⟨_, rfl, by decide⟩, ⟨_, rfl, by decide⟩, ⟨_, rfl, by decide⟩, _, rfl, by decide⟩
theorem witness_StatusIsNeverRead :
    (∃ t, step (testState 0 0 0xFF 0xFFFD [0xA9]) = .next t) ∧ ∃ t, step (testState 0 0 0xFF 0xFFFF [0xA9]) = .next t :=
  ⟨⟨_, rfl⟩, _, rfl⟩
/-- At 0xFFFD the operand byte agrees and another byte does not; at 0xFFFE the byte after LDA's opcode does not agree. -/
theorem witness_StepReadsMemoryOnlyToFetch :
    ((∃ t, step (testState 0 0 0 0xFFFD [0xA9, 0x05]) = .next t) ∧
        Memory.read8 [(0x0000, 0x77), (0xFFFD, 0xA9), (0xFFFE, 0x05)] 0xFFFD =
          Memory.read8 (testState 0 0 0 0xFFFD [0xA9, 0x05]).mem 0xFFFD ∧
        (testState 0 0 0 0xFFFD [0xA9, 0x05]).pc.toNat ≤ 0xFFFD ∧
        Memory.read8 [(0x0000, 0x77), (0xFFFD, 0xA9), (0xFFFE, 0x05)] 0xFFFE =
          Memory.read8 (testState 0 0 0 0xFFFD [0xA9, 0x05]).mem 0xFFFE) ∧
      (∃ t, step (testState 0 0 0 0xFFFE [0xA9, 0x05]) = .next t) ∧
        Memory.read8 [(0xFFFE, 0xA9), (0xFFFF, 0x06)] 0xFFFE =
          Memory.read8 (testState 0 0 0 0xFFFE [0xA9, 0x05]).mem 0xFFFE ∧
        ¬(testState 0 0 0 0xFFFE [0xA9, 0x05]).pc.toNat ≤ 0xFFFD :=
  ⟨⟨⟨_, rfl⟩, by decide⟩, ⟨_, rfl⟩, by decide⟩
theorem witness_ControlFlowIgnoresData :
    (∃ t, step (testState 0x80 0xFF 0x82 0x8000 [0xAA]) = .next t) ∧
      ∃ t, step (testState 0x80 0xFF 0x82 0xFFFE [0xA9]) = .next t := ⟨⟨_, rfl⟩, _, rfl⟩

/-- LDA's clauses: 0xFFFD completes, 0xFFFE overflows, and the step that fetches it. -/
theorem witness_LdaLoadsImmediate :
    (testState 0 0 0 0xFFFD [0xA9, 0x05]).pc.toNat ≤ 0xFFFD ∧ 0xFFFE ≤ (testState 0 0 0 0xFFFE [0xA9]).pc.toNat ∧
      (testState 0 0 0 0xFFFD [0xA9, 0x05]).runState = .ready ∧
      Memory.read8 (testState 0 0 0 0xFFFD [0xA9, 0x05]).mem 0xFFFD = 0xA9 := by decide
theorem witness_TaxTransfersAccumulator :
    (testState 0x80 0 0 0xFFFE [0xAA]).pc ≠ 0xFFFF ∧ (testState 0x80 0 0 0xFFFE [0xAA]).runState = .ready ∧
      Memory.read8 (testState 0x80 0 0 0xFFFE [0xAA]).mem 0xFFFE = 0xAA := by decide
theorem witness_InxIncrementsIndex :
    (0x00 : Byte).toNat = ((testState 0 0xFF 0 0xFFFE [0xE8]).x.toNat + 1) % 256 ∧
      (0x80 : Byte).toNat = ((testState 0 0x7F 0 0xFFFE [0xE8]).x.toNat + 1) % 256 ∧
      (testState 0 0xFF 0 0xFFFE [0xE8]).pc ≠ 0xFFFF ∧ (testState 0 0xFF 0 0xFFFE [0xE8]).runState = .ready ∧
      Memory.read8 (testState 0 0xFF 0 0xFFFE [0xE8]).mem 0xFFFE = 0xE8 := by decide
theorem witness_BrkHalts :
    (testState 0 0 0 0xFFFE []).pc ≠ 0xFFFF ∧ (testState 0 0 0 0xFFFF []).pc = 0xFFFF ∧
      (testState 0 0 0 0xFFFE []).runState = .ready ∧ Memory.read8 (testState 0 0 0 0xFFFE []).mem 0xFFFE = 0x00 := by
  decide
theorem witness_UnimplementedOpcodeFaults :
    (testState 0 0 0 0xFFFE [0x01]).pc ≠ 0xFFFF ∧ definedOpcode 0x01 = false ∧
      (testState 0 0 0 0xFFFE [0x01]).runState = .ready ∧
      Memory.read8 (testState 0 0 0 0xFFFE [0x01]).mem 0xFFFE = 0x01 := by decide
theorem witness_TopOfMemoryOverflows : (testState 0 0 0 0xFFFF [0xE8]).pc = 0xFFFF := by decide
theorem witness_InstructionFrame :
    (∃ t, exec (.lda 0x05) (testState 1 2 0x7D 0x8000 []) = .next t) ∧
      (∃ t, exec .tax (testState 1 2 0x7D 0x8000 []) = .next t) ∧
      (∃ t, exec .inx (testState 1 2 0x7D 0x8000 []) = .next t) ∧
      (∃ t, exec .brk (testState 1 2 0x7D 0x8000 []) = .next t) ∧
      ∃ t, exec (.unimplemented 0x01) (testState 1 2 0x7D 0x8000 []) = .next t :=
  ⟨⟨_, rfl⟩, ⟨_, rfl⟩, ⟨_, rfl⟩, ⟨_, rfl⟩, _, rfl⟩

/-- A canonical memory with a byte at each end of the address space. -/
def edgeMemory : Memory := [(0x0000, 0x01), (0xFFFF, 0xFE)]

theorem witness_AluPassesAndIncrements : (0 : Nat) ≠ 1 ∧ (6 : Nat) ≠ 1 ∧ (6 : Nat) ≠ 7 := by decide
theorem witness_ZeroAndNegativeExclusive :
    ¬(zFlag (testState 0 0xFF 0x80 0x8000 [0xE8]).status = true ∧
        nFlag (testState 0 0xFF 0x80 0x8000 [0xE8]).status = true) ∧
      ∃ t, step (testState 0 0xFF 0x80 0x8000 [0xE8]) = .next t := ⟨by decide, _, rfl⟩
theorem witness_Write8StoresOneByte : Memory.wf edgeMemory = true ∧ (0xFFFF : Addr) ≠ 0x0000 := by decide
theorem witness_Read16IsLittleEndian : (0xFFFF : Addr) = 0xFFFF ∧ (0xFFFE : Addr) ≠ 0xFFFF := by decide
theorem witness_Write16StoresBothBytes :
    Memory.wf edgeMemory = true ∧ (0xFFFE : Addr) ≠ 0xFFFF ∧ (0x0000 : Addr) ≠ 0xFFFE ∧
      (0x0000 : Addr) ≠ (0xFFFE : Addr) + 1 := by decide
theorem witness_MixedWidthRoundTrips :
    Memory.wf edgeMemory = true ∧ (0xFFFE : Addr) ≠ 0xFFFF ∧
      ∃ m', Memory.write16 edgeMemory 0xFFFE 0xBEEF = .ok m' := ⟨by decide, by decide, _, rfl⟩
theorem witness_LoadBlockCopiesOrFails :
    Memory.wf edgeMemory = true ∧ (0xFFFF : Addr).toNat + [0x01, 0x02].length > 0x10000 ∧
      (0xFFFE : Addr).toNat + [0x01, 0x02].length ≤ 0x10000 ∧ (1 : Nat) < [0x01, 0x02].length ∧
      (0xFFFD : Addr).toNat < (0xFFFE : Addr).toNat := by decide
theorem witness_CanonicalMemoriesThatReadAlikeAreEqual :
    Memory.wf edgeMemory = true ∧ ∀ a : Addr, Memory.read8 edgeMemory a = Memory.read8 edgeMemory a :=
  ⟨by decide, fun _ => rfl⟩

theorem witness_inv_faulted :
    State.Inv { State.reset with runState := .faulted, fault := some ⟨.pcOverflow, 0xA9, 0xFFFE⟩ } :=
  ⟨by decide, by decide, by decide⟩
theorem witness_StepKeepsInvariant :
    State.Inv (testState 0 0 0 0x8000 [0xEA]) ∧ ∃ t, step (testState 0 0 0 0x8000 [0xEA]) = .next t :=
  ⟨⟨by decide, by decide, by decide⟩, _, rfl⟩
theorem witness_HostOperationsKeepInvariant :
    State.Inv { State.reset with runState := .faulted, fault := some ⟨.unimplementedOpcode, 0x01, 0x8000⟩ } :=
  ⟨by decide, by decide, by decide⟩

/-- An empty program, a byte of a program, and the largest one (R154). -/
theorem witness_HostLoadPlacesProgram :
    Memory.wf State.reset.mem = true ∧ ([] : List Byte).length ≤ 0x8000 ∧
      (List.replicate 0x8000 (0xE8 : Byte)).length ≤ 0x8000 ∧
      0x7FFF < (List.replicate 0x8000 (0xE8 : Byte)).length :=
  ⟨by decide, by decide, by rw [List.length_replicate], by rw [List.length_replicate]; decide⟩
theorem witness_HostLoadRefusesLargeImage : (List.replicate 0x8001 (0xE8 : Byte)).length > 0x8000 := by
  rw [List.length_replicate]; decide
theorem witness_FaultAndErrorCodes_step :
    (∃ t, step (testState 0 0 0 0xFFFE [0xFF]) = .next t ∧ t.runState = .faulted) ∧
      ∃ t, step (testState 0 0 0 0xFFFE [0xA9]) = .next t ∧ t.runState = .faulted :=
  ⟨⟨_, rfl, by decide⟩, _, rfl, by decide⟩
theorem witness_FaultAndErrorCodes_operations :
    (∃ e, Memory.read16 edgeMemory 0xFFFF = .error e) ∧ (∃ e, Memory.write16 edgeMemory 0xFFFF 0x1234 = .error e) ∧
      ∃ e, Memory.loadBlock edgeMemory 0xFFFF [0x01, 0x02] = .error e := ⟨⟨_, rfl⟩, ⟨_, rfl⟩, _, rfl⟩
theorem witness_FaultAndErrorCodes_load :
    ∃ e, hostLoad (List.replicate 0x8001 (0xE8 : Byte)) State.reset = .error e := by
  have h : (List.replicate 0x8001 (0xE8 : Byte)).length > Config.loadCapacity := by
    rw [List.length_replicate]; decide
  exact ⟨_, if_pos h⟩
theorem witness_ConstructionAndResetValues :
    State.construct = State.construct ∧ State.reset = State.reset := ⟨rfl, rfl⟩
theorem witness_OperationKeepsResetOutcome :
    HostOp.loadsNothing (.run none) = true ∧ HostOp.loadsNothing .reset = true ∧
      HostOp.loadsNothing (.preset (.pc 0xFFFF)) = true := by decide
theorem witness_LaunchStartsAtRomBase :
    Memory.wf edgeMemory = true ∧ ∃ t, hostLoad [0xE8] (State.reset.setMem edgeMemory) = .ok t :=
  ⟨by decide, _, rfl⟩
theorem witness_ResetAfterLoadAlwaysRestores :
    Memory.wf State.reset.mem = true ∧ (∃ t, hostLoad [0xE8] State.reset = .ok t) ∧
      [HostOp.reset, .run none, .preset (.a 0x5A), .run (some 2)].all HostOp.loadsNothing = true :=
  ⟨by decide, ⟨_, rfl⟩, by decide⟩
theorem witness_FaultLastsUntilReset :
    (State.reset.setRunState .faulted).runState = .faulted ∧
      ∃ t, hostLoad [0x00] (State.reset.setRunState .faulted) = .ok t := ⟨by decide, _, rfl⟩
theorem witness_RunResumesAfterHalt : (State.reset.setRunState .halted).runState = .halted := by decide
theorem witness_RunTakesOneStep :
    (∃ t, step (testState 0 0 0 0x8000 [0xE8]) = .next t ∧ t.runState = .ready) ∧
      (∃ t, step (testState 0 0 0 0x8000 [0x00]) = .next t ∧ t.runState = .halted) ∧
      ∃ t, step (testState 0 0 0 0x8000 [0xEA]) = .next t ∧ t.runState = .faulted :=
  ⟨⟨_, rfl, by decide⟩, ⟨_, rfl, by decide⟩, _, rfl, by decide⟩
theorem witness_RunContinuesAfterBudget :
    ∃ t, hostRun (some 1) (testState 0 0 0 0x8000 [0xE8]) = (.budgetExhausted, t) := ⟨_, rfl⟩
theorem witness_UnboundedRunEnds : 0x10000 - (testState 0 0 0 0xFFFF []).pc.toNat ≤ 1 := by decide
theorem witness_HaltedRunStopsPastBrk :
    ∃ t, hostRun (some 1) (testState 0 0 0 0xFFFE []) = (.halted, t) := ⟨_, rfl⟩
theorem witness_FaultedRunReportsRecord :
    ∃ f t, hostRun (some 1) (testState 0 0 0 0xFFFE [0xA9]) = (.fault f, t) := ⟨_, _, rfl⟩
theorem witness_FaultedRunReportsRecord_start : (testState 0 0 0 0xFFFE [0xA9]).runState ≠ .faulted := by decide
theorem witness_LoadAndRunComposes :
    (List.replicate 0x8001 (0xE8 : Byte)).length > 0x8000 ∧ (List.replicate 0x8000 (0xE8 : Byte)).length ≤ 0x8000 := by
  rw [List.length_replicate, List.length_replicate]; decide
theorem witness_PlacedWordRunsNext :
    Memory.wf (testState 0 0 0 0xFFFE []).mem = true ∧ (testState 0 0 0 0xFFFE []).pc ≠ 0xFFFF ∧
      decodeTableWord 16 0xFFA9 = some (.lda 0xFF) := by decide

end Sys2Proof.Tests
end

/-! ### Reading after the memory controller's writes (spec/20_memory.md R41 to R46) -/

namespace Sys2Proof.Machine

/-! One byte -/

theorem Memory.read8_write8_same {m : Memory} (addr : Addr) (v : Byte) (hm : Memory.wf m = true) :
    Memory.read8 (Memory.write8 m addr v) addr = v :=
  Memory.get_put_same v hm

theorem Memory.read8_write8_other (m : Memory) {addr other : Addr} (v : Byte) (h : other ≠ addr) :
    Memory.read8 (Memory.write8 m addr v) other = Memory.read8 m other :=
  Memory.get_put_other m v fun e => h (BitVec.eq_of_toNat_eq e)

/-! The two bytes of a 16-bit value -/

theorem word16_toNat (hi lo : Byte) : (word16 hi lo).toNat = hi.toNat * 256 + lo.toNat := by
  have hlo := lo.isLt
  rw [word16, BitVec.toNat_append, ← Nat.shiftLeft_add_eq_or_of_lt hlo, Nat.shiftLeft_eq]

theorem loByte_toNat (v : BitVec 16) : (loByte v).toNat = v.toNat % 256 := by
  simp [loByte, BitVec.extractLsb'_toNat]

theorem hiByte_toNat (v : BitVec 16) : (hiByte v).toNat = v.toNat / 256 := by
  have hv := v.isLt
  rw [hiByte, BitVec.extractLsb'_toNat, Nat.shiftRight_eq_div_pow]
  omega

/-! The checks before a transfer: 0xFFFF is the only address whose pair of bytes leaves memory -/

/-- The bounds check of `read16` and `write16` fails exactly at 0xFFFF. -/
theorem pair_out_of_range_iff (addr : Addr) : addr.toNat + 1 > 0xFFFF ↔ addr = Config.topAddr := by
  constructor
  · intro h
    refine BitVec.eq_of_toNat_eq ?_
    have hl := addr.isLt
    rw [show Config.topAddr.toNat = 0xFFFF from rfl]
    omega
  · rintro rfl
    decide

theorem Memory.read16_top (m : Memory) :
    Memory.read16 m Config.topAddr = .error (.addressOutOfRange Config.topAddr 2) :=
  if_pos ((pair_out_of_range_iff _).mpr rfl)

theorem Memory.read16_below (m : Memory) {addr : Addr} (h : addr ≠ Config.topAddr) :
    Memory.read16 m addr = .ok (Memory.pairAt m addr) :=
  if_neg (mt (pair_out_of_range_iff _).mp h)

theorem Memory.write16_top (m : Memory) (v : BitVec 16) :
    Memory.write16 m Config.topAddr v = .error (.addressOutOfRange Config.topAddr 2) :=
  if_pos ((pair_out_of_range_iff _).mpr rfl)

theorem Memory.write16_below (m : Memory) {addr : Addr} (v : BitVec 16) (h : addr ≠ Config.topAddr) :
    Memory.write16 m addr v = .ok (Memory.write8 (Memory.write8 m addr (loByte v)) (addr + 1) (hiByte v)) :=
  if_neg (mt (pair_out_of_range_iff _).mp h)

/-- The addresses of a pair of bytes differ, also where the second would wrap. -/
theorem addr_ne_succ (addr : Addr) : addr ≠ addr + 1 := by
  intro h
  have h0 : (0 : Addr) = 1 := add_left_cancel ((add_zero addr).trans h)
  exact absurd h0 (by decide)

/-! Blocks -/

theorem Memory.loadBlock_past_end (m : Memory) {base : Addr} {bytes : List Byte}
    (h : base.toNat + bytes.length > Config.memSize) :
    Memory.loadBlock m base bytes = .error (.addressOutOfRange base bytes.length) :=
  if_pos h

theorem Memory.loadBlock_fits (m : Memory) {base : Addr} {bytes : List Byte}
    (h : base.toNat + bytes.length ≤ Config.memSize) :
    Memory.loadBlock m base bytes = .ok (Memory.copyFrom m base.toNat bytes) :=
  if_neg (Nat.not_lt.mpr h)

/-- An offset that stays inside memory is added exactly. -/
theorem toNat_add_offset {base : Addr} {k : Nat} (h : base.toNat + k < Config.memSize) :
    (base + BitVec.ofNat 16 k).toNat = base.toNat + k := by
  rw [BitVec.toNat_add, BitVec.toNat_ofNat, Nat.add_mod_mod]
  exact Nat.mod_eq_of_lt h

/-- Byte `k` of a block that fits reads at `base + k`. -/
theorem Memory.read8_copyFrom_inside {m : Memory} {base : Addr} {bytes : List Byte} {k : Nat}
    (hm : Memory.wf m = true) (hfit : base.toNat + bytes.length ≤ Config.memSize) (hk : k < bytes.length) :
    Memory.read8 (Memory.copyFrom m base.toNat bytes) (base + BitVec.ofNat 16 k) = bytes[k] := by
  rw [Memory.read8, toNat_add_offset (by omega)]
  exact Memory.get_copyFrom_inside hm hfit hk

end Sys2Proof.Machine

/-! ### The statements about memory -/

namespace Sys2Proof.Proofs

open Sys2Proof.Machine

/-- Settles O25: the second write is at another address than the first, so each byte reads back as written. -/
theorem write16StoresBothBytes : Obligations.Write16StoresBothBytes := by
  intro m addr v hm
  refine ⟨?_, fun hne => ⟨_, Memory.write16_below m v hne, ?_, ?_, ?_⟩⟩
  · rintro rfl
    exact Memory.write16_top m v
  · rw [Memory.read8_write8_other _ _ (addr_ne_succ addr), Memory.read8_write8_same _ _ hm, loByte_toNat]
  · rw [Memory.read8_write8_same _ _ (Memory.write8_wf _ _ hm), hiByte_toNat]
  · intro other hlo hhi
    rw [Memory.read8_write8_other _ _ hhi, Memory.read8_write8_other _ _ hlo]

/-- Settles O27: a block that fits is the copy of R45, whose range and whose outside are read by the laws of
`copyFrom`. -/
theorem loadBlockCopiesOrFails : Obligations.LoadBlockCopiesOrFails := by
  intro m base bytes hm
  refine ⟨Memory.loadBlock_past_end m, fun hfit => ⟨_, Memory.loadBlock_fits m hfit, ?_, ?_, ?_⟩⟩
  · intro k hk
    exact Memory.read8_copyFrom_inside hm hfit hk
  · intro a hout
    exact Memory.get_copyFrom_outside m bytes hout
  · rintro rfl
    rfl

/-- Settles O23, from the two rules of reading after `write8`. -/
theorem write8StoresOneByte : Obligations.Write8StoresOneByte := by
  intro m addr v hm
  exact ⟨Memory.read8_write8_same addr v hm, fun _ hne => Memory.read8_write8_other m v hne⟩

/-- Settles O24: the value of the pair is that of `hi ++ lo` (R14, R46). -/
theorem read16IsLittleEndian : Obligations.Read16IsLittleEndian := by
  intro m addr
  constructor
  · rintro rfl
    exact Memory.read16_top m
  · intro hne
    exact ⟨_, Memory.read16_below m hne, word16_toNat _ _⟩

end Sys2Proof.Proofs

/-! ### What the decoder reads for each row of the opcode map (spec/30_encoding.md R60 to R64) -/

namespace Sys2Proof

@[simp] theorem decode_opBrk (rest : List Byte) : decode (opBrk :: rest) = .ok (.brk, rest) := rfl

@[simp] theorem decode_opLda (imm8 : Byte) (rest : List Byte) :
    decode (opLda :: imm8 :: rest) = .ok (.lda imm8, rest) := rfl

@[simp] theorem decode_opTax (rest : List Byte) : decode (opTax :: rest) = .ok (.tax, rest) := rfl

@[simp] theorem decode_opInx (rest : List Byte) : decode (opInx :: rest) = .ok (.inx, rest) := rfl

/-- A byte outside the map fails all four comparisons of the decoder. -/
theorem decode_of_not_in_map {op : Byte} (rest : List Byte) (hbrk : op ≠ opBrk) (hlda : op ≠ opLda)
    (htax : op ≠ opTax) (hinx : op ≠ opInx) : decode (op :: rest) = .ok (.unimplemented op, rest) := by
  simp only [decode, if_neg hbrk, if_neg hlda, if_neg htax, if_neg hinx]

end Sys2Proof

/-! ### The statement about the decoder -/

namespace Sys2Proof.Proofs

/-- Settles O1: the words written out bit by bit are the opcodes of R63, so each clause is the decoder's equation for
one row of the map. -/
theorem decodeReadsOpcodeMap : Obligations.DecodeReadsOpcodeMap := by
  intro imm8 rest
  exact ⟨decode_opBrk rest, decode_opLda imm8 rest, decode_opTax rest, decode_opInx rest,
    fun _ hbrk hlda htax hinx => decode_of_not_in_map rest hbrk hlda htax hinx⟩

end Sys2Proof.Proofs

/-! ### Every bit of a flag update, and the increment (spec/40_alu.md R81 to R85) -/

namespace Sys2Proof.Machine

theorem getLsbD_zMask (k : Nat) : Config.zMask.getLsbD k = decide (k = 1) := by
  rw [show Config.zMask = BitVec.twoPow 8 1 from rfl, BitVec.getLsbD_twoPow]
  simp [eq_comm]

theorem getLsbD_nMask (k : Nat) : Config.nMask.getLsbD k = decide (k = 7) := by
  rw [show Config.nMask = BitVec.twoPow 8 7 from rfl, BitVec.getLsbD_twoPow]
  simp [eq_comm]

/-- The write of one flag in R82, with a mask `m` whose only bit is bit `n`: bit `n` takes the condition and every other
bit is kept. -/
theorem getLsbD_writeFlag {m : Byte} {n : Nat} (hm : ∀ j, m.getLsbD j = decide (j = n)) (p : Prop) [Decidable p]
    (s : Byte) (k : Nat) :
    (if p then s ||| m else s &&& ~~~m).getLsbD k = if k = n then decide p else s.getLsbD k := by
  by_cases hp : p
  · rw [if_pos hp, BitVec.getLsbD_or, hm]
    split_ifs with hk <;> simp [hk, hp]
  · rw [if_neg hp, BitVec.getLsbD_and, BitVec.getLsbD_not, hm]
    split_ifs with hk
    · simp [hk, hp]
    · have hlt : s.getLsbD k = true → k < 8 := BitVec.lt_of_getLsbD
      simpa [hk] using hlt

/-- R83 to R85 bit by bit: the update writes Z first and N over it. -/
theorem flagsZN_getLsbD (s v : Byte) (k : Nat) :
    (flagsZN s v).getLsbD k =
      if k = 7 then v.getLsbD 7 else if k = 1 then decide (v = 0x00) else s.getLsbD k := by
  simp only [flagsZN]
  rw [getLsbD_writeFlag getLsbD_nMask, getLsbD_writeFlag getLsbD_zMask, Bool.decide_eq_true]

/-- Of `STATUS` a flag update keeps every bit but Z and N (R85). -/
theorem flagsZN_getLsbD_reserved (s v : Byte) {k : Nat} (hz : k ≠ 1) (hn : k ≠ 7) :
    (flagsZN s v).getLsbD k = s.getLsbD k := by
  rw [flagsZN_getLsbD, if_neg hn, if_neg hz]

/-- Bit 7 of a byte, which N takes, is set from 0x80 on (R84). -/
theorem getLsbD_seven_iff (v : Byte) : v.getLsbD 7 = true ↔ 0x80 ≤ v.toNat := by
  have h : v.getLsbD 7 = decide (0x80 ≤ v.toNat) := v.msb_eq_getLsbD_last.symm.trans v.msb_eq_decide
  rw [h, decide_eq_true_iff]

theorem aluInc8_toNat (v : Byte) : (aluInc8 v).toNat = (v.toNat + 1) % 256 := BitVec.toNat_add v 1

theorem aluInc8_wraps_iff (v : Byte) : (aluInc8 v).toNat ≠ v.toNat + 1 ↔ v = 0xFF := by
  have hv := v.isLt
  rw [aluInc8_toNat, ← BitVec.toNat_inj, show (0xFF : Byte).toNat = 255 from rfl]
  omega

/-! ### `STATUS` after a step that retires its instruction (spec/40_alu.md R86) -/

/-- Every case of a meaning: the status of a retirement is the flag update by the new value of the result register, and
without a result register no case writes it. -/
theorem ExecCase.status {i : Instr} {s t : State} (h : ExecCase i s t) (hr : t.runState ≠ .faulted) :
    t.status = match resultReg i with
      | some r => flagsZN s.status (t.readReg r)
      | none => s.status := by
  cases h with
  | overflow _ => exact absurd (raiseFault_runState _ _ s) hr
  | noSuchOpcode op _ _ => exact absurd (raiseFault_runState _ op s) hr
  | lda _ hi _ _ => subst hi; rfl
  | tax hi _ => subst hi; rfl
  | inx hi _ => subst hi; rfl
  | brk hi _ => subst hi; rfl

/-- The opcode byte of a well-formed instruction fixes its result register: the byte of an unimplemented one is none of
the map's. -/
theorem resultReg_of_opcode {i : Instr} (hw : WellFormed i = true) :
    resultReg i =
      if opcodeOf i = opLda then some .a
      else if opcodeOf i = opTax ∨ opcodeOf i = opInx then some .x else none := by
  cases i with
  | brk => rfl
  | lda imm8 => rfl
  | tax => rfl
  | inx => rfl
  | unimplemented op =>
    have hne : ∀ b, definedOpcode b = true → op ≠ b := by
      rintro b hb rfl
      simp [WellFormed, hb] at hw
    simp only [resultReg, opcodeOf, hne opLda rfl, hne opTax rfl, hne opInx rfl, if_false, or_self]

/-- R86: the opcode byte at `PC` says which register's new value the flags of a retired instruction come from. -/
theorem step_status {s t : State} (h : step s = .next t) (hr : t.runState ≠ .faulted) :
    t.status =
      if Memory.read8 s.mem s.pc = opLda then flagsZN s.status t.a
      else if Memory.read8 s.mem s.pc = opTax ∨ Memory.read8 s.mem s.pc = opInx then flagsZN s.status t.x
      else s.status := by
  obtain ⟨_, i, hw, hop, hc⟩ := step_cases h
  rw [hc.status hr, resultReg_of_opcode hw, hop]
  split_ifs <;> rfl

end Sys2Proof.Machine

/-! ### The statements about the flags and the ALU -/

namespace Sys2Proof.Proofs

open Sys2Proof.Machine

/-- Settles O10: the opcode byte selects the case of `step_status`; BRK's is none of the three with a result
register. -/
theorem flagsComeFromValueWritten : Obligations.FlagsComeFromValueWritten := by
  intro s t hstep hr
  refine ⟨?_, ?_, ?_, ?_⟩ <;>
  · intro hop
    rw [step_status hstep hr, hop]
    rfl

/-- Settles O21: the three clauses are the three branches of `flagsZN_getLsbD`. -/
theorem flagUpdateRules : Obligations.FlagUpdateRules := by
  intro s v
  refine ⟨?_, ?_, fun k => flagsZN_getLsbD_reserved s v⟩
  · rw [flagsZN_getLsbD, if_neg (by decide), if_pos rfl, decide_eq_true_iff]
  · rw [flagsZN_getLsbD, if_pos rfl, getLsbD_seven_iff]

/-- Settles O22: the increment is modulo 256, and R85 keeps the other bits whatever the result. -/
theorem aluPassesAndIncrements : Obligations.AluPassesAndIncrements := by
  intro v
  exact ⟨aluPass_eq v, aluInc8_toNat v, aluInc8_wraps_iff v,
    fun status _ => flagsZN_getLsbD_reserved status (aluInc8 v)⟩

end Sys2Proof.Proofs

/-! ### The step at an opcode below the top of memory (spec/30_encoding.md R68) -/

namespace Sys2Proof.Machine

/-- Below 0xFFFF the fetch finds what the decoder reads from the opcode byte and the byte after it. -/
theorem fetch_of_decode {s : State} {op : Byte} {i : Instr} {rest : List Byte} (hpc : s.pc ≠ Config.topAddr)
    (hop : Memory.read8 s.mem s.pc = op) (hd : decode [op, Memory.read8 s.mem (s.pc + 1)] = .ok (i, rest)) :
    fetch s = .ok i := by
  simp only [fetch, fetchWindow, if_neg hpc, hop, hd]

/-- A `Ready` step runs the instruction fetched. -/
theorem step_of_fetch {s : State} {i : Instr} (hr : s.runState = .ready) (hf : fetch s = .ok i) :
    step s = exec i s := by
  simp only [step, stepGuard, hr, hf]

theorem step_opTax {s : State} (hr : s.runState = .ready) (hpc : s.pc ≠ Config.topAddr)
    (hop : Memory.read8 s.mem s.pc = opTax) : step s = exec .tax s :=
  step_of_fetch hr (fetch_of_decode hpc hop (decode_opTax _))

/-! ### The flag update as the claims state it -/

theorem flagsZN_reflects (s v : Byte) : FlagsReflect s v (flagsZN s v) :=
  ⟨flagsZN_getLsbD s v Config.zBit, flagsZN_getLsbD s v Config.nBit, fun _ => flagsZN_getLsbD_reserved s v⟩

end Sys2Proof.Machine

/-! ### The statement about TAX -/

namespace Sys2Proof.Proofs

open Sys2Proof.Machine

/-- Settles O15: below 0xFFFF the advance succeeds, so TAX retires `A` into `X`, and the step there fetches TAX. -/
theorem taxTransfersAccumulator : Obligations.TaxTransfersAccumulator := by
  intro s
  exact ⟨rfl, exec_tax_fits, flagsZN_reflects s.status s.a, step_opTax⟩

end Sys2Proof.Proofs

/-! ### The step at INX (spec/30_encoding.md R68) -/

namespace Sys2Proof.Machine

theorem step_opInx {s : State} (hr : s.runState = .ready) (hpc : s.pc ≠ Config.topAddr)
    (hop : Memory.read8 s.mem s.pc = opInx) : step s = exec .inx s :=
  step_of_fetch hr (fetch_of_decode hpc hop (decode_opInx _))

/-! ### What the flags say of a result, and of an incremented one (spec/40_alu.md R81 to R84) -/

theorem zFlag_flagsZN_iff (s v : Byte) : zFlag (flagsZN s v) = true ↔ v = 0x00 := by
  obtain ⟨hz, _, _⟩ := flagsZN_reflects s v
  rw [hz, decide_eq_true_iff]

theorem nFlag_flagsZN_iff (s v : Byte) : nFlag (flagsZN s v) = true ↔ 0x80 ≤ v.toNat := by
  obtain ⟨_, hn, _⟩ := flagsZN_reflects s v
  rw [hn, getLsbD_seven_iff]

/-- The increment is zero only where it wraps. -/
theorem aluInc8_eq_zero_iff (v : Byte) : aluInc8 v = 0x00 ↔ v = 0xFF := by
  have hv := v.isLt
  rw [← BitVec.toNat_inj, aluInc8_toNat, ← BitVec.toNat_inj, show (0x00 : Byte).toNat = 0 from rfl,
    show (0xFF : Byte).toNat = 255 from rfl]
  omega

/-- The increment has bit 7 set from 0x7F on, save where it wraps. -/
theorem aluInc8_negative_iff (v : Byte) :
    0x80 ≤ (aluInc8 v).toNat ↔ 0x7F ≤ v.toNat ∧ v.toNat ≤ 0xFE := by
  have hv := v.isLt
  rw [aluInc8_toNat]
  omega

end Sys2Proof.Machine

/-! ### The statement about INX -/

namespace Sys2Proof.Proofs

open Sys2Proof.Machine

/-- Settles O16: `v` is the ALU's increment of `X`, so below 0xFFFF INX retires it, and the flag clauses are the flags'
meaning read back through the increment. -/
theorem inxIncrementsIndex : Obligations.InxIncrementsIndex := by
  intro s v hv
  obtain rfl : v = aluInc8 s.x := BitVec.eq_of_toNat_eq (hv.trans (aluInc8_toNat s.x).symm)
  refine ⟨rfl, exec_inx_fits, ?_, ?_, fun _ => flagsZN_getLsbD_reserved s.status _, step_opInx⟩
  · rw [zFlag_flagsZN_iff, aluInc8_eq_zero_iff]
  · rw [nFlag_flagsZN_iff, aluInc8_negative_iff]

end Sys2Proof.Proofs

/-! ### The decoder both ways (spec/30_encoding.md R60 to R65) -/

namespace Sys2Proof

theorem definedOpcode_eq_false_iff (op : Byte) :
    definedOpcode op = false ↔ op ≠ opBrk ∧ op ≠ opLda ∧ op ≠ opTax ∧ op ≠ opInx := by
  simp [definedOpcode, opBrk, opLda, opTax, opInx, and_assoc]

theorem wellFormed_unimplemented_iff (op : Byte) :
    WellFormed (.unimplemented op) = true ↔ definedOpcode op = false := by
  simp [WellFormed]

@[simp] theorem decode_nil : decode [] = .error .noOpcode := rfl

@[simp] theorem decode_opLda_alone : decode [opLda] = .error .noOperand := rfl

theorem decode_of_not_defined {op : Byte} (rest : List Byte) (h : definedOpcode op = false) :
    decode (op :: rest) = .ok (.unimplemented op, rest) := by
  obtain ⟨hbrk, hlda, htax, hinx⟩ := (definedOpcode_eq_false_iff op).mp h
  exact decode_of_not_in_map rest hbrk hlda htax hinx

theorem decode_encode (i : Instr) (rest : List Byte) (hw : WellFormed i = true) :
    decode (encode i ++ rest) = .ok (i, rest) := by
  cases i with
  | brk => exact decode_opBrk rest
  | lda imm8 => exact decode_opLda imm8 rest
  | tax => exact decode_opTax rest
  | inx => exact decode_opInx rest
  | unimplemented op => exact decode_of_not_defined rest ((wellFormed_unimplemented_iff op).mp hw)

/-- Every byte list is cut short, or is the encoding of a well-formed instruction and a rest. -/
theorem bytes_cases (bytes : List Byte) :
    bytes = [] ∨ bytes = [opLda] ∨ ∃ i rest, WellFormed i = true ∧ bytes = encode i ++ rest := by
  match bytes with
  | [] => exact .inl rfl
  | op :: rest =>
    refine .inr ?_
    by_cases hlda : op = opLda
    · subst hlda
      match rest with
      | [] => exact .inl rfl
      | imm8 :: rest' => exact .inr ⟨.lda imm8, rest', rfl, rfl⟩
    by_cases hbrk : op = opBrk
    · exact .inr ⟨.brk, rest, rfl, by rw [hbrk]; rfl⟩
    by_cases htax : op = opTax
    · exact .inr ⟨.tax, rest, rfl, by rw [htax]; rfl⟩
    by_cases hinx : op = opInx
    · exact .inr ⟨.inx, rest, rfl, by rw [hinx]; rfl⟩
    have hund : definedOpcode op = false := (definedOpcode_eq_false_iff op).mpr ⟨hbrk, hlda, htax, hinx⟩
    exact .inr ⟨.unimplemented op, rest, (wellFormed_unimplemented_iff op).mpr hund, rfl⟩

/-- What the decoder answers was encoded by the bytes it took. -/
theorem eq_encode_of_decode {bytes rest : List Byte} {i : Instr} (h : decode bytes = .ok (i, rest)) :
    WellFormed i = true ∧ bytes = encode i ++ rest := by
  obtain rfl | rfl | ⟨j, rest', hw, rfl⟩ := bytes_cases bytes
  · cases h
  · cases h
  · rw [decode_encode j rest' hw] at h
    cases h
    exact ⟨hw, rfl⟩

theorem decode_eq_error_iff (bytes : List Byte) (e : DecodeError) :
    decode bytes = .error e ↔ (bytes = [] ∧ e = .noOpcode) ∨ (bytes = [opLda] ∧ e = .noOperand) := by
  constructor
  · intro h
    obtain rfl | rfl | ⟨j, rest, hw, rfl⟩ := bytes_cases bytes
    · cases h
      exact .inl ⟨rfl, rfl⟩
    · cases h
      exact .inr ⟨rfl, rfl⟩
    · rw [decode_encode j rest hw] at h
      cases h
  · rintro (⟨rfl, rfl⟩ | ⟨rfl, rfl⟩)
    · exact decode_nil
    · exact decode_opLda_alone

end Sys2Proof

/-! ### The statements about the decoder's two directions -/

namespace Sys2Proof.Proofs

/-- Settles O2: the encoding starts with the instruction's opcode, and a well-formed unimplemented byte is none of the
map's. -/
theorem decodeInvertsEncode : Obligations.DecodeInvertsEncode :=
  decode_encode

/-- Settles O3: every byte list that is not cut short is an encoding followed by a rest, which O2 decodes. -/
theorem decodedBytesAreTheEncoding : Obligations.DecodedBytesAreTheEncoding := by
  intro bytes rest i h
  exact eq_encode_of_decode h

/-- Settles O4: the two byte lists that are cut short are the two errors. -/
theorem decodeRejectsOnlyTruncation : Obligations.DecodeRejectsOnlyTruncation :=
  decode_eq_error_iff

end Sys2Proof.Proofs

/-! ### What a step that faults and a step that retires leave (spec/30_encoding.md R68, R69) -/

namespace Sys2Proof.Machine

/-- The next address is 0xFFFF exactly at 0xFFFE. -/
theorem succ_eq_top_iff (addr : Addr) : addr + 1 = Config.topAddr ↔ addr = 0xFFFE :=
  ⟨fun h => add_right_cancel (h.trans (show Config.topAddr = (0xFFFE : Addr) + 1 from rfl)), fun h => h ▸ rfl⟩

/-- A meaning that answers a faulted block, from a block that was not, entered a fault that the checks justify. -/
theorem ExecCase.faulted {i : Instr} {s t : State} (h : ExecCase i s t) (hw : WellFormed i = true)
    (hs : s.runState ≠ .faulted) (ht : t.runState = .faulted) :
    ∃ kind, t = raiseFault kind (opcodeOf i) s ∧ recordJustified ⟨kind, opcodeOf i, s.pc⟩ = true := by
  cases h with
  | overflow h =>
    refine ⟨.pcOverflow, rfl, ?_⟩
    obtain hpc | ⟨_, hnext, hop⟩ := h
    · simp [recordJustified, hpc]
    · simp [recordJustified, (succ_eq_top_iff s.pc).mp hnext, hop]
  | noSuchOpcode op hi h =>
    subst hi
    refine ⟨.unimplementedOpcode, rfl, ?_⟩
    simp [recordJustified, opcodeOf, h, (wellFormed_unimplemented_iff op).mp hw]
  | lda imm8 _ _ _ => exact absurd ((retireResult_runState .a imm8 _ s).symm.trans ht) hs
  | tax _ _ => exact absurd ((retireResult_runState .x s.a _ s).symm.trans ht) hs
  | inx _ _ => exact absurd ((retireResult_runState .x (aluInc8 s.x) _ s).symm.trans ht) hs
  | brk _ _ => cases ht

/-- A meaning that retires its instruction moves `PC` by the instruction's length, below 0xFFFF each time. -/
theorem ExecCase.pc_of_retired {i : Instr} {s t : State} (h : ExecCase i s t) (hw : WellFormed i = true)
    (ht : t.runState ≠ .faulted) : t.pc.toNat = s.pc.toNat + if opcodeOf i = opLda then 2 else 1 := by
  cases h with
  | overflow _ => exact absurd rfl ht
  | noSuchOpcode op _ _ => exact absurd rfl ht
  | lda imm8 hi h h' =>
    subst hi
    rw [retireResult_pc, toNat_succ h', toNat_succ h]
    rfl
  | tax hi h =>
    subst hi
    exact toNat_succ h
  | inx hi h =>
    subst hi
    exact toNat_succ h
  | brk hi h =>
    subst hi
    exact toNat_succ h

theorem ExecCase.mem {i : Instr} {s t : State} (h : ExecCase i s t) : t.mem = s.mem := by
  cases h <;> rfl

theorem ExecCase.fault_of_retired {i : Instr} {s t : State} (h : ExecCase i s t) (ht : t.runState ≠ .faulted) :
    t.fault = s.fault := by
  cases h with
  | overflow _ => exact absurd rfl ht
  | noSuchOpcode op _ _ => exact absurd rfl ht
  | lda _ _ _ _ => rfl
  | tax _ _ => rfl
  | inx _ _ => rfl
  | brk _ _ => rfl

theorem ExecCase.runState {i : Instr} {s t : State} (h : ExecCase i s t) :
    t.runState = s.runState ∨ t.runState = .faulted ∨ (i = .brk ∧ t.runState = .halted) := by
  cases h with
  | overflow _ => exact .inr (.inl rfl)
  | noSuchOpcode op _ _ => exact .inr (.inl rfl)
  | lda _ _ _ _ => exact .inl rfl
  | tax _ _ => exact .inl rfl
  | inx _ _ => exact .inl rfl
  | brk hi _ => exact .inr (.inr ⟨hi, rfl⟩)

/-- `STATUS` changes only by a flag update. -/
theorem ExecCase.status_kept_or_updated {i : Instr} {s t : State} (h : ExecCase i s t) :
    t.status = s.status ∨ ∃ v, t.status = flagsZN s.status v := by
  cases h with
  | overflow _ => exact .inl rfl
  | noSuchOpcode op _ _ => exact .inl rfl
  | lda imm8 _ _ _ => exact .inr ⟨imm8, rfl⟩
  | tax _ _ => exact .inr ⟨s.a, rfl⟩
  | inx _ _ => exact .inr ⟨aluInc8 s.x, rfl⟩
  | brk _ _ => exact .inl rfl

theorem ExecCase.status_reserved {i : Instr} {s t : State} (h : ExecCase i s t) {k : Nat} (hz : k ≠ 1) (hn : k ≠ 7) :
    t.status.getLsbD k = s.status.getLsbD k := by
  obtain hs | ⟨v, hs⟩ := h.status_kept_or_updated
  · rw [hs]
  · rw [hs, flagsZN_getLsbD_reserved s.status v hz hn]

/-! The same facts about a step, with the opcode byte at `PC` -/

theorem step_runState {s t : State} (h : step s = .next t) : s.runState = .ready :=
  (step_cases h).1

theorem step_mem {s t : State} (h : step s = .next t) : t.mem = s.mem := by
  obtain ⟨_, i, _, _, hc⟩ := step_cases h
  exact hc.mem

theorem step_status_kept_or_updated {s t : State} (h : step s = .next t) :
    t.status = s.status ∨ ∃ v, t.status = flagsZN s.status v := by
  obtain ⟨_, i, _, _, hc⟩ := step_cases h
  exact hc.status_kept_or_updated

theorem step_status_reserved {s t : State} (h : step s = .next t) {k : Nat} (hz : k ≠ 1) (hn : k ≠ 7) :
    t.status.getLsbD k = s.status.getLsbD k := by
  obtain ⟨_, i, _, _, hc⟩ := step_cases h
  exact hc.status_reserved hz hn

theorem step_fault_of_retired {s t : State} (h : step s = .next t) (ht : t.runState ≠ .faulted) :
    t.fault = s.fault := by
  obtain ⟨_, i, _, _, hc⟩ := step_cases h
  exact hc.fault_of_retired ht

theorem step_pc_of_retired {s t : State} (h : step s = .next t) (ht : t.runState ≠ .faulted) :
    t.pc.toNat = s.pc.toNat + if Memory.read8 s.mem s.pc = opLda then 2 else 1 := by
  obtain ⟨_, i, hw, hop, hc⟩ := step_cases h
  rw [hc.pc_of_retired hw ht, hop]

/-- A step that faults is one fault entry, with a justified record of the opcode byte at `PC` (R128). -/
theorem step_faulted {s t : State} (h : step s = .next t) (ht : t.runState = .faulted) :
    ∃ kind, t = raiseFault kind (Memory.read8 s.mem s.pc) s ∧
      recordJustified ⟨kind, Memory.read8 s.mem s.pc, s.pc⟩ = true := by
  obtain ⟨hr, i, hw, hop, hc⟩ := step_cases h
  rw [← hop]
  exact hc.faulted hw (by simp [hr]) ht

/-- Only BRK, the byte 0x00, halts. -/
theorem step_halted {s t : State} (h : step s = .next t) (ht : t.runState = .halted) :
    Memory.read8 s.mem s.pc = opBrk := by
  obtain ⟨hr, i, _, hop, hc⟩ := step_cases h
  obtain hs | hs | ⟨rfl, _⟩ := hc.runState
  · rw [ht, hr] at hs
    cases hs
  · rw [ht] at hs
    cases hs
  · exact hop.symm

/-! ### Invariants of runs: what every step keeps, a run keeps (spec/70_reset_and_hazards.md R156) -/

/-- A property that a next state inherits holds after each turn of the run loop, the last one too. -/
theorem stepOrStay_keeps {P : State → Prop} (hstep : ∀ s t, P s → step s = .next t → P t) {s : State} (h : P s) :
    P (stepOrStay s) := by
  unfold stepOrStay
  split
  case h_1 t ht => exact hstep s t h ht
  case h_2 => exact h
  case h_3 => exact h

theorem runSteps_keeps {P : State → Prop} (hstep : ∀ s t, P s → step s = .next t → P t) (n : Nat) {s : State}
    (h : P s) : P (runSteps n s).2 := by
  induction n generalizing s with
  | zero => exact h
  | succ n ih =>
    have hturn : P (stepOrStay s) := stepOrStay_keeps hstep h
    rw [runSteps]
    split
    · exact hturn
    · exact hturn
    · exact ih hturn

theorem State.setRunState_self {s : State} {r : RunState} (h : s.runState = r) : s.setRunState r = s := by
  subst h
  rfl

/-- A run outside `Faulted` is the loop on the block made `Ready`. -/
theorem hostRun_of_not_faulted (budget : Option Nat) {s : State} (h : s.runState ≠ .faulted) :
    hostRun budget s = runSteps (stepsAllowed budget s) (s.setRunState .ready) := by
  cases hr : s.runState with
  | ready => simp only [hostRun, hr, State.setRunState_self hr]
  | halted => simp only [hostRun, hr]
  | faulted => exact absurd hr h

theorem hostRun_of_faulted (budget : Option Nat) {s : State} (h : s.runState = .faulted) :
    hostRun budget s = (.fault s.fault, s) := by
  simp only [hostRun, h]

/-- What every step and the return to `Ready` keep, a run with any budget keeps. -/
theorem hostRun_keeps {P : State → Prop} (hstep : ∀ s t, P s → step s = .next t → P t)
    (hready : ∀ s, s.runState ≠ .faulted → P s → P (s.setRunState .ready)) (budget : Option Nat) {s : State}
    (h : P s) : P (hostRun budget s).2 := by
  by_cases hf : s.runState = .faulted
  · rw [hostRun_of_faulted budget hf]
    exact h
  · rw [hostRun_of_not_faulted budget hf]
    exact runSteps_keeps hstep _ (hready s hf h)

theorem hostRun_mem (budget : Option Nat) (s : State) : (hostRun budget s).2.mem = s.mem :=
  hostRun_keeps (P := fun u => u.mem = s.mem) (fun _ _ h hstep => (step_mem hstep).trans h) (fun _ _ h => h) budget rfl

theorem hostRun_status_reserved (budget : Option Nat) (s : State) {k : Nat} (hz : k ≠ 1) (hn : k ≠ 7) :
    (hostRun budget s).2.status.getLsbD k = s.status.getLsbD k :=
  hostRun_keeps (P := fun u => u.status.getLsbD k = s.status.getLsbD k)
    (fun _ _ h hstep => (step_status_reserved hstep hz hn).trans h) (fun _ _ h => h) budget rfl

/-! ### What `load` does (spec/70_reset_and_hazards.md R154) -/

/-- Memory after `load`: the program copied to 0x8000, then the reset vector set to 0x8000. -/
def Memory.withProgram (m : Memory) (program : List Byte) : Memory :=
  Memory.write8 (Memory.write8 (Memory.copyFrom m Config.romBase.toNat program) Config.resetVector
    (loByte Config.romBase)) (Config.resetVector + 1) (hiByte Config.romBase)

theorem program_fits {program : List Byte} (h : program.length ≤ Config.loadCapacity) :
    Config.romBase.toNat + program.length ≤ Config.memSize := by
  rw [show Config.romBase.toNat = 0x8000 from rfl]
  simp only [Config.loadCapacity, Config.memSize] at h ⊢
  omega

theorem hostLoad_fits {program : List Byte} (s : State) (h : program.length ≤ Config.loadCapacity) :
    hostLoad program s = .ok (s.setMem (Memory.withProgram s.mem program)) := by
  rw [hostLoad, if_neg (Nat.not_lt.mpr h), Memory.loadBlock_fits s.mem (program_fits h)]
  rfl

theorem hostLoad_too_large {program : List Byte} (s : State) (h : program.length > Config.loadCapacity) :
    hostLoad program s = .error (.imageTooLarge program.length) :=
  if_pos h

theorem hostLoad_eq_ok_iff (program : List Byte) (s t : State) :
    hostLoad program s = .ok t ↔
      program.length ≤ Config.loadCapacity ∧ t = s.setMem (Memory.withProgram s.mem program) := by
  by_cases h : program.length ≤ Config.loadCapacity
  · rw [hostLoad_fits s h, Except.ok.injEq, eq_comm (a := t), and_iff_right h]
  · rw [hostLoad_too_large s (Nat.lt_of_not_le h)]
    exact iff_of_false (fun h' => nomatch h') fun h' => h h'.1

theorem Memory.withProgram_wf {m : Memory} {program : List Byte} (hm : Memory.wf m = true)
    (h : program.length ≤ Config.loadCapacity) : Memory.wf (Memory.withProgram m program) = true :=
  Memory.write8_wf _ _ (Memory.write8_wf _ _ (Memory.copyFrom_wf hm (program_fits h)))

/-! ### The invariant (spec/10_state.md R31) -/

/-- The invariant speaks of memory, `RUN` and `FAULT` alone. -/
theorem State.Inv.congr {s t : State} (h : State.Inv s) (hm : t.mem = s.mem) (hr : t.runState = s.runState)
    (hf : t.fault = s.fault) : State.Inv t :=
  ⟨hm ▸ h.memCanonical, by rw [hr, hf]; exact h.faultPresent, hf ▸ h.recordOk⟩

/-- Outside `Faulted` the invariant is: canonical memory and no record. -/
theorem State.inv_iff_of_not_faulted {s : State} (h : s.runState ≠ .faulted) :
    State.Inv s ↔ Memory.wf s.mem = true ∧ s.fault = none := by
  constructor
  · intro hi
    refine ⟨hi.memCanonical, ?_⟩
    cases hf : s.fault with
    | none => rfl
    | some r => exact absurd (hi.faultPresent.mp (by rw [hf]; rfl)) h
  · rintro ⟨hm, hf⟩
    exact ⟨hm, by simp [hf, h], by rw [hf]; rfl⟩

theorem raiseFault_inv {s : State} {kind : FaultKind} {op : Byte} (hm : Memory.wf s.mem = true)
    (hj : recordJustified ⟨kind, op, s.pc⟩ = true) : State.Inv (raiseFault kind op s) :=
  ⟨hm, iff_of_true rfl rfl, hj⟩

theorem step_inv {s t : State} (hi : State.Inv s) (h : step s = .next t) : State.Inv t := by
  by_cases ht : t.runState = .faulted
  · obtain ⟨kind, rfl, hj⟩ := step_faulted h ht
    exact raiseFault_inv hi.memCanonical hj
  · have hs : s.runState ≠ .faulted := by simp [step_runState h]
    rw [State.inv_iff_of_not_faulted hs] at hi
    rw [State.inv_iff_of_not_faulted ht, step_mem h, step_fault_of_retired h ht]
    exact hi

theorem setRunState_ready_inv {s : State} (h : s.runState ≠ .faulted) (hi : State.Inv s) :
    State.Inv (s.setRunState .ready) :=
  (State.inv_iff_of_not_faulted (by simp)).mpr ((State.inv_iff_of_not_faulted h).mp hi)

theorem hostReset_inv {s : State} (hi : State.Inv s) : State.Inv (hostReset s) :=
  (State.inv_iff_of_not_faulted (by simp [hostReset])).mpr ⟨hi.memCanonical, rfl⟩

theorem hostLoad_inv {program : List Byte} {s t : State} (hi : State.Inv s) (h : hostLoad program s = .ok t) :
    State.Inv t := by
  obtain ⟨hlen, rfl⟩ := (hostLoad_eq_ok_iff program s t).mp h
  exact ⟨Memory.withProgram_wf hi.memCanonical hlen, hi.faultPresent, hi.recordOk⟩

theorem hostRun_inv (budget : Option Nat) {s : State} (hi : State.Inv s) : State.Inv (hostRun budget s).2 :=
  hostRun_keeps (fun _ _ => step_inv) (fun _ => setRunState_ready_inv) budget hi

@[simp] theorem hostPreset_mem (p : Preset) (s : State) : (hostPreset p s).mem = s.mem := by
  cases p <;> rfl
@[simp] theorem hostPreset_runState (p : Preset) (s : State) : (hostPreset p s).runState = s.runState := by
  cases p <;> rfl
@[simp] theorem hostPreset_fault (p : Preset) (s : State) : (hostPreset p s).fault = s.fault := by
  cases p <;> rfl

theorem perform_inv (op : HostOp) {s : State} (hi : State.Inv s) : State.Inv (perform op s).2 := by
  cases op with
  | load program =>
    cases hl : hostLoad program s with
    | error e => simpa only [perform, hl] using hi
    | ok t => simpa only [perform, hl] using hostLoad_inv hi hl
  | reset => exact hostReset_inv hi
  | run budget => exact hostRun_inv budget hi
  | loadAndRun program budget =>
    cases hl : hostLoad program s with
    | error e => simpa only [perform, hostLoadAndRun, hl] using hi
    | ok t => simpa only [perform, hostLoadAndRun, hl] using hostRun_inv budget (hostReset_inv (hostLoad_inv hi hl))
  | preset p => exact hi.congr (hostPreset_mem p s) (hostPreset_runState p s) (hostPreset_fault p s)

end Sys2Proof.Machine

/-! ### The statements about invariants -/

namespace Sys2Proof.Proofs

open Sys2Proof.Machine

/-- Settles O30: a faulting step is one justified fault entry; any other keeps memory and `FAULT`. -/
theorem stepKeepsInvariant : Obligations.StepKeepsInvariant := by
  intro s t
  exact step_inv

/-- Settles O31, by the operations: a run keeps what its steps keep, and the others leave memory canonical and no new
record. -/
theorem hostOperationsKeepInvariant : Obligations.HostOperationsKeepInvariant := by
  intro op s
  exact perform_inv op

/-- Settles O46: no step changes memory or a reserved bit, and so no run does. -/
theorem runKeepsMemoryAndReservedBits : Obligations.RunKeepsMemoryAndReservedBits := by
  intro budget s
  exact ⟨hostRun_mem budget s, fun _ => hostRun_status_reserved budget s⟩

/-- Settles O29: no record, and no listed byte. -/
theorem resetMeetsInvariant : Obligations.ResetMeetsInvariant :=
  (State.inv_iff_of_not_faulted (by decide)).mpr ⟨rfl, rfl⟩

end Sys2Proof.Proofs

/-! ### The instruction that a step runs (spec/30_encoding.md R68) -/

namespace Sys2Proof

/-- What the decoder reads from an opcode byte and the byte after it. -/
def instrOf (op operand : Byte) : Instr :=
  if op = opBrk then .brk
  else if op = opLda then .lda operand
  else if op = opTax then .tax
  else if op = opInx then .inx
  else .unimplemented op

theorem decode_pair (op operand : Byte) : ∃ rest, decode [op, operand] = .ok (instrOf op operand, rest) := by
  simp only [decode, instrOf]
  split_ifs <;> exact ⟨_, rfl⟩

@[simp] theorem opcodeOf_instrOf (op operand : Byte) : opcodeOf (instrOf op operand) = op := by
  unfold instrOf
  split_ifs with hbrk hlda htax hinx
  · exact hbrk.symm
  · exact hlda.symm
  · exact htax.symm
  · exact hinx.symm
  · rfl

/-- Only LDA has an operand byte. -/
theorem instrOf_operand_irrelevant {op : Byte} (h : op ≠ opLda) (operand operand' : Byte) :
    instrOf op operand = instrOf op operand' := by
  simp only [instrOf, if_neg h]

end Sys2Proof

namespace Sys2Proof.Machine

theorem fetchWindow_top {s : State} (h : s.pc = Config.topAddr) : fetchWindow s = [Memory.read8 s.mem s.pc] :=
  if_pos h

theorem fetchWindow_below {s : State} (h : s.pc ≠ Config.topAddr) :
    fetchWindow s = [Memory.read8 s.mem s.pc, Memory.read8 s.mem (s.pc + 1)] :=
  if_neg h

theorem fetch_of_decode_ok {s : State} {i : Instr} {rest : List Byte} (h : decode (fetchWindow s) = .ok (i, rest)) :
    fetch s = .ok i := by
  simp only [fetch, h]

theorem fetch_of_decode_error {s : State} {e : DecodeError} (h : decode (fetchWindow s) = .error e) :
    fetch s = .error (raiseFault .pcOverflow (Memory.read8 s.mem s.pc) s) := by
  simp only [fetch, h]

/-- The one window that does not decode: LDA's opcode at 0xFFFF. -/
theorem window_cut_short {s : State} {e : DecodeError} (h : decode (fetchWindow s) = .error e) :
    s.pc = Config.topAddr ∧ Memory.read8 s.mem s.pc = opLda := by
  by_cases hpc : s.pc = Config.topAddr
  · rw [fetchWindow_top hpc] at h
    obtain ⟨hnil, _⟩ | ⟨hlda, _⟩ := (decode_eq_error_iff _ e).mp h
    · cases hnil
    · exact ⟨hpc, List.singleton_inj.mp hlda⟩
  · obtain ⟨rest, hd⟩ := decode_pair (Memory.read8 s.mem s.pc) (Memory.read8 s.mem (s.pc + 1))
    rw [fetchWindow_below hpc, hd] at h
    cases h

theorem step_of_fetch_error {s t : State} (hr : s.runState = .ready) (hf : fetch s = .error t) : step s = .next t := by
  simp only [step, stepGuard, hr, hf]

/-- A `Ready` step is the meaning of the instruction read from the bytes at `PC` and after it; at 0xFFFF, where the second
byte is another one, every meaning raises the same fault. -/
theorem step_eq_exec {s : State} (hr : s.runState = .ready) :
    step s = exec (instrOf (Memory.read8 s.mem s.pc) (Memory.read8 s.mem (s.pc + 1))) s := by
  by_cases hpc : s.pc = Config.topAddr
  · rw [exec_top _ hpc, opcodeOf_instrOf]
    obtain ⟨i, hf, _, hop⟩ | ⟨_, _, hf⟩ := fetch_cases s
    · rw [step_of_fetch hr hf, exec_top i hpc, hop]
    · exact step_of_fetch_error hr hf
  · obtain ⟨rest, hd⟩ := decode_pair (Memory.read8 s.mem s.pc) (Memory.read8 s.mem (s.pc + 1))
    exact step_of_fetch hr (fetch_of_decode hpc rfl hd)

theorem step_defined {s : State} (hr : s.runState = .ready) : ∃ t, step s = .next t := by
  obtain ⟨t, ht, _⟩ := exec_cases (instrOf (Memory.read8 s.mem s.pc) (Memory.read8 s.mem (s.pc + 1))) s
  exact ⟨t, (step_eq_exec hr).trans ht⟩

theorem step_of_halted {s : State} (h : s.runState = .halted) : step s = .fault .halted := by
  simp only [step, stepGuard, h]

theorem step_of_faulted {s : State} (h : s.runState = .faulted) : step s = .fault .faulted := by
  simp only [step, stepGuard, h]

theorem step_opBrk {s : State} (hr : s.runState = .ready) (hpc : s.pc ≠ Config.topAddr)
    (hop : Memory.read8 s.mem s.pc = opBrk) : step s = exec .brk s :=
  step_of_fetch hr (fetch_of_decode hpc hop (decode_opBrk _))

theorem step_opLda {s : State} (hr : s.runState = .ready) (hpc : s.pc ≠ Config.topAddr)
    (hop : Memory.read8 s.mem s.pc = opLda) : step s = exec (.lda (Memory.read8 s.mem (s.pc + 1))) s :=
  step_of_fetch hr (fetch_of_decode hpc hop (decode_opLda _ _))

theorem step_not_defined {s : State} {op : Byte} (hr : s.runState = .ready) (hpc : s.pc ≠ Config.topAddr)
    (hop : Memory.read8 s.mem s.pc = op) (hu : definedOpcode op = false) : step s = exec (.unimplemented op) s :=
  step_of_fetch hr (fetch_of_decode hpc hop (decode_of_not_defined _ hu))

/-! ### Where LDA's two bytes fit (spec/41_load_transfer.md R90) -/

theorem lda_fits_iff (addr : Addr) : addr.toNat ≤ 0xFFFD ↔ addr ≠ Config.topAddr ∧ addr + 1 ≠ Config.topAddr := by
  have hl := addr.isLt
  rw [Ne, Ne, succ_eq_top_iff, ← BitVec.toNat_inj, ← BitVec.toNat_inj, show Config.topAddr.toNat = 0xFFFF from rfl,
    show (0xFFFE : Addr).toNat = 0xFFFE from rfl]
  omega

theorem exec_lda_overflow {s : State} (imm8 : Byte) (h : ¬ s.pc.toNat ≤ 0xFFFD) :
    exec (.lda imm8) s = .next (raiseFault .pcOverflow opLda s) := by
  by_cases hpc : s.pc = Config.topAddr
  · exact exec_top _ hpc
  · have hnext : s.pc + 1 = Config.topAddr := by
      by_contra hne
      exact h ((lda_fits_iff s.pc).mpr ⟨hpc, hne⟩)
    exact exec_lda_operand_top imm8 hpc hnext

/-! ### When a step passes the checks of spec/60_exceptions.md R127 -/

/-- A meaning faults only by one of the three checks. -/
theorem ExecCase.retires {i : Instr} {s t : State} (h : ExecCase i s t) (hs : s.runState ≠ .faulted)
    (hpc : s.pc ≠ Config.topAddr) (hdef : definedOpcode (opcodeOf i) = true)
    (hlda : ¬(s.pc = 0xFFFE ∧ opcodeOf i = opLda)) (hw : WellFormed i = true) : t.runState ≠ .faulted := by
  intro ht
  obtain ⟨kind, _, hj⟩ := h.faulted hw hs ht
  cases kind with
  | unimplementedOpcode => simp [recordJustified, hdef] at hj
  | pcOverflow =>
    simp only [recordJustified, Bool.or_eq_true, Bool.and_eq_true, beq_iff_eq] at hj
    exact hj.elim hpc hlda

theorem step_retires {s t : State} (h : step s = .next t) (hpc : s.pc ≠ Config.topAddr)
    (hdef : definedOpcode (Memory.read8 s.mem s.pc) = true)
    (hlda : ¬(s.pc = 0xFFFE ∧ Memory.read8 s.mem s.pc = opLda)) : t.runState ≠ .faulted := by
  obtain ⟨hr, i, hw, hop, hc⟩ := step_cases h
  rw [← hop] at hdef hlda
  exact hc.retires (by simp [hr]) hpc hdef hlda hw

/-! ### What an instruction does is fixed by the instruction and its address -/

/-- The three things a meaning can do to a state, with everything that does not depend on the state filled in. -/
inductive Effect where
  /-- A fault entry (R128). -/
  | fault (kind : FaultKind) (op : Byte)
  /-- The retirement of the ALU's result, the function of one operand, in a register (R69). -/
  | result (r : DataReg) (alu : Byte → Byte) (o : Operand) (next : Addr)
  /-- The halt (R110). -/
  | halt (next : Addr)

/-- The effect on a state. -/
def Effect.apply : Effect → State → State
  | .fault kind op, s => raiseFault kind op s
  | .result r alu o next, s => retireResult r (alu (o.value s)) next s
  | .halt next, s => retireHalt next s

/-- An instruction has one effect on all states that stand at the same `PC`. -/
theorem exec_effect (i : Instr) (pc : Addr) : ∃ e : Effect, ∀ s, s.pc = pc → exec i s = .next (e.apply s) := by
  by_cases h : pc = Config.topAddr
  · exact ⟨.fault .pcOverflow (opcodeOf i), fun s hs => exec_top i (hs.trans h)⟩
  cases i with
  | brk => exact ⟨.halt (pc + 1), by rintro s rfl; exact exec_brk_fits h⟩
  | lda imm8 =>
    by_cases h' : pc + 1 = Config.topAddr
    · exact ⟨.fault .pcOverflow opLda, by rintro s rfl; exact exec_lda_operand_top imm8 h h'⟩
    · exact ⟨.result .a aluPass (.imm imm8) (pc + 1 + 1), by rintro s rfl; exact exec_lda_fits imm8 h h'⟩
  | tax => exact ⟨.result .x aluPass (.reg .a) (pc + 1), by rintro s rfl; exact exec_tax_fits h⟩
  | inx => exact ⟨.result .x aluInc8 (.reg .x) (pc + 1), by rintro s rfl; exact exec_inx_fits h⟩
  | unimplemented op => exact ⟨.fault .unimplementedOpcode op, by rintro s rfl; exact exec_unimplemented_fits op h⟩

/-- A step has one effect on all `Ready` states that agree on `PC` and memory. -/
theorem step_effect {s t : State} (h : step s = .next t) :
    ∃ e : Effect, t = e.apply s ∧
      ∀ u, u.runState = .ready → u.pc = s.pc → u.mem = s.mem → step u = .next (e.apply u) := by
  have hr := step_runState h
  obtain ⟨e, he⟩ := exec_effect (instrOf (Memory.read8 s.mem s.pc) (Memory.read8 s.mem (s.pc + 1))) s.pc
  refine ⟨e, ?_, fun u hu hpc hmem => ?_⟩
  · rw [step_eq_exec hr, he s rfl, Host.Outcome.next.injEq] at h
    exact h.symm
  · rw [step_eq_exec hu, hpc, hmem, he u hpc]

/-- The state an operand is read from matters by its data registers alone. -/
theorem operand_value_congr (o : Operand) {s t : State} (ha : t.a = s.a) (hx : t.x = s.x) : o.value t = o.value s := by
  cases o with
  | imm v => rfl
  | reg q =>
    cases q with
    | a => exact ha
    | x => exact hx

@[simp] theorem operand_value_setStatus (o : Operand) (s : State) (w : Byte) :
    o.value (s.setStatus w) = o.value s :=
  operand_value_congr o rfl rfl

@[simp] theorem operand_value_setMem (o : Operand) (s : State) (m : Memory) : o.value (s.setMem m) = o.value s :=
  operand_value_congr o rfl rfl

/-- No effect reads `STATUS`, and the status it leaves keeps the reserved bits of the one it found. -/
theorem Effect.apply_setStatus (e : Effect) (s : State) (w : Byte) :
    ∃ w', e.apply (s.setStatus w) = (e.apply s).setStatus w' ∧ ∀ k, k ≠ 1 → k ≠ 7 → w'.getLsbD k = w.getLsbD k := by
  cases e with
  | fault kind op => exact ⟨w, rfl, fun _ _ _ => rfl⟩
  | halt next => exact ⟨w, rfl, fun _ _ _ => rfl⟩
  | result r alu o next =>
    refine ⟨flagsZN w (alu (o.value s)), ?_, fun _ => flagsZN_getLsbD_reserved w _⟩
    rw [Effect.apply, operand_value_setStatus]
    cases r <;> rfl

/-- No effect reads or writes memory. -/
theorem Effect.apply_setMem (e : Effect) (s : State) (m : Memory) : e.apply (s.setMem m) = (e.apply s).setMem m := by
  cases e with
  | fault kind op => rfl
  | halt next => rfl
  | result r alu o next =>
    rw [Effect.apply, operand_value_setMem]
    cases r <;> rfl

/-- The next `PC`, `RUN`, `FAULT` and memory do not depend on `A`, `X` and `STATUS`. -/
theorem Effect.apply_control (e : Effect) (s : State) (a' x' w : Byte) :
    (e.apply { s with a := a', x := x', status := w }).pc = (e.apply s).pc ∧
      (e.apply { s with a := a', x := x', status := w }).runState = (e.apply s).runState ∧
      (e.apply { s with a := a', x := x', status := w }).fault = (e.apply s).fault ∧
      (e.apply { s with a := a', x := x', status := w }).mem = (e.apply s).mem := by
  cases e with
  | fault kind op => exact ⟨rfl, rfl, rfl, rfl⟩
  | halt next => exact ⟨rfl, rfl, rfl, rfl⟩
  | result r alu o next => simp [Effect.apply]

/-- Another memory that agrees on the bytes fetched: the operand byte counts only for LDA, and only where it fits. -/
theorem step_setMem {s t : State} {m : Memory} (h : step s = .next t)
    (hop : Memory.read8 m s.pc = Memory.read8 s.mem s.pc)
    (hoperand : Memory.read8 s.mem s.pc = opLda → s.pc.toNat ≤ 0xFFFD →
      Memory.read8 m (s.pc + 1) = Memory.read8 s.mem (s.pc + 1)) :
    step (s.setMem m) = .next (t.setMem m) := by
  have hr := step_runState h
  obtain ⟨e, he⟩ := exec_effect (instrOf (Memory.read8 s.mem s.pc) (Memory.read8 s.mem (s.pc + 1))) s.pc
  have hsame : exec (instrOf (Memory.read8 s.mem s.pc) (Memory.read8 m (s.pc + 1))) (s.setMem m) =
      exec (instrOf (Memory.read8 s.mem s.pc) (Memory.read8 s.mem (s.pc + 1))) (s.setMem m) := by
    by_cases hlda : Memory.read8 s.mem s.pc = opLda
    · by_cases hfit : s.pc.toNat ≤ 0xFFFD
      · rw [hoperand hlda hfit]
      · rw [hlda]
        exact (exec_lda_overflow (s := s.setMem m) _ hfit).trans (exec_lda_overflow (s := s.setMem m) _ hfit).symm
    · rw [instrOf_operand_irrelevant hlda]
  rw [step_eq_exec hr, he s rfl, Host.Outcome.next.injEq] at h
  rw [step_eq_exec (s := s.setMem m) hr, State.setMem_mem, State.setMem_pc, hop, hsame, he (s.setMem m) rfl,
    Effect.apply_setMem, h]

/-! ### What an instruction leaves unchanged -/

@[simp] theorem raiseFault_readReg (kind : FaultKind) (op : Byte) (s : State) (q : DataReg) :
    (raiseFault kind op s).readReg q = s.readReg q := by
  cases q <;> rfl

@[simp] theorem retireHalt_readReg (next : Addr) (s : State) (q : DataReg) :
    (retireHalt next s).readReg q = s.readReg q := by
  cases q <;> rfl

/-- A register that is not the result register keeps its value. -/
theorem ExecCase.readReg_frame {i : Instr} {s t : State} {q : DataReg} (h : ExecCase i s t)
    (hq : resultReg i ≠ some q) : t.readReg q = s.readReg q := by
  cases h with
  | overflow _ => exact raiseFault_readReg _ _ s q
  | noSuchOpcode op _ _ => exact raiseFault_readReg _ op s q
  | lda imm8 hi _ _ => exact retireResult_read_other imm8 _ s fun e => hq (by rw [hi, e]; rfl)
  | tax hi _ => exact retireResult_read_other s.a _ s fun e => hq (by rw [hi, e]; rfl)
  | inx hi _ => exact retireResult_read_other _ _ s fun e => hq (by rw [hi, e]; rfl)
  | brk _ _ => exact retireHalt_readReg _ s q

/-- Without a result register `STATUS` is kept whole. -/
theorem ExecCase.status_frame {i : Instr} {s t : State} (h : ExecCase i s t) (hi : resultReg i = none) :
    t.status = s.status := by
  cases h with
  | overflow _ => rfl
  | noSuchOpcode op _ _ => rfl
  | lda imm8 hj _ _ => rw [hj] at hi; cases hi
  | tax hj _ => rw [hj] at hi; cases hi
  | inx hj _ => rw [hj] at hi; cases hi
  | brk _ _ => rfl

theorem exec_next_cases {i : Instr} {s t : State} (h : exec i s = .next t) : ExecCase i s t := by
  obtain ⟨u, hu, hc⟩ := exec_cases i s
  rw [hu, Host.Outcome.next.injEq] at h
  exact h ▸ hc

/-! ### The codes of faults and errors (spec/60_exceptions.md R120) -/

theorem Memory.read16_error_code {m : Memory} {addr : Addr} {e : OpError} (h : Memory.read16 m addr = .error e) :
    e.code = 3 := by
  by_cases ha : addr = Config.topAddr
  · rw [ha, Memory.read16_top] at h
    cases h
    rfl
  · rw [Memory.read16_below m ha] at h
    cases h

theorem Memory.write16_error_code {m : Memory} {addr : Addr} {v : BitVec 16} {e : OpError}
    (h : Memory.write16 m addr v = .error e) : e.code = 3 := by
  by_cases ha : addr = Config.topAddr
  · rw [ha, Memory.write16_top] at h
    cases h
    rfl
  · rw [Memory.write16_below m v ha] at h
    cases h

theorem Memory.loadBlock_error_code {m : Memory} {base : Addr} {bytes : List Byte} {e : OpError}
    (h : Memory.loadBlock m base bytes = .error e) : e.code = 3 := by
  by_cases hfit : base.toNat + bytes.length ≤ Config.memSize
  · rw [Memory.loadBlock_fits m hfit] at h
    cases h
  · rw [Memory.loadBlock_past_end m (Nat.lt_of_not_le hfit)] at h
    cases h
    rfl

theorem hostLoad_error_code {program : List Byte} {s : State} {e : OpError} (h : hostLoad program s = .error e) :
    e.code = 4 := by
  by_cases hlen : program.length ≤ Config.loadCapacity
  · rw [hostLoad_fits s hlen] at h
    cases h
  · rw [hostLoad_too_large s (Nat.lt_of_not_le hlen)] at h
    cases h
    rfl

/-! ### Z and N (spec/40_alu.md R85, the last sentence) -/

theorem flagsZN_exclusive (s v : Byte) : ¬(zFlag (flagsZN s v) = true ∧ nFlag (flagsZN s v) = true) := by
  rw [zFlag_flagsZN_iff, nFlag_flagsZN_iff]
  rintro ⟨rfl, hn⟩
  exact absurd hn (by decide)

end Sys2Proof.Machine

/-! ### The statements about the step -/

namespace Sys2Proof.Proofs

open Sys2Proof.Machine

/-- Settles O5: the fetch is the decoder on the window, and the one window that is cut short is LDA's opcode at
0xFFFF. -/
theorem stepRunsDecodedInstruction : Obligations.StepRunsDecodedInstruction := by
  intro s hr
  refine ⟨fetchWindow_top, fetchWindow_below, fun i rest hd => step_of_fetch hr (fetch_of_decode_ok hd), ?_⟩
  intro e hd
  obtain ⟨hpc, hlda⟩ := window_cut_short hd
  exact ⟨hpc, hlda, by rw [step_of_fetch_error hr (fetch_of_decode_error hd), hlda]; rfl⟩

/-- Settles O6: in `Ready` the step is a meaning, and every meaning answers. -/
theorem stepDefinedExactlyInReady : Obligations.StepDefinedExactlyInReady :=
  ⟨fun _ => step_defined, fun _ => step_of_halted, fun _ => step_of_faulted⟩

/-- Settles O7: each check has its meaning's lemma; where all pass, the meaning retires. -/
theorem stepFaultsInOrder : Obligations.StepFaultsInOrder := by
  intro s hr
  refine ⟨fun hpc => ?_, fun hpc hu => ?_, fun hpc hop => ?_, fun hpc hdef hlda => ?_⟩
  · rw [step_eq_exec hr, exec_top _ hpc, opcodeOf_instrOf]
    rfl
  · rw [step_not_defined hr hpc rfl hu]
    exact exec_unimplemented_fits _ hpc
  · have hbelow : s.pc ≠ Config.topAddr := by rw [hpc]; decide
    rw [step_opLda hr hbelow hop]
    exact exec_lda_operand_top _ hbelow ((succ_eq_top_iff s.pc).mpr hpc)
  · obtain ⟨t, ht⟩ := step_defined hr
    have hret := step_retires ht hpc hdef hlda
    exact ⟨t, ht, hret, step_fault_of_retired ht hret⟩

/-- Settles O8: the step is one fault entry, which writes `RUN` and `FAULT` alone. -/
theorem faultingStepIsPrecise : Obligations.FaultingStepIsPrecise := by
  intro s t h ht
  obtain ⟨kind, rfl, hj⟩ := step_faulted h ht
  exact ⟨rfl, rfl, rfl, rfl, rfl, _, rfl, rfl, rfl, rfl, hj⟩

/-- Settles O9: the advance is exact below 0xFFFF, and at 0xFFFF nothing retires. -/
theorem pcAdvancesByLength : Obligations.PcAdvancesByLength := by
  intro s t
  exact step_pc_of_retired

/-- Settles O11: the step's effect is the same one, and no effect reads `STATUS`. -/
theorem statusIsNeverRead : Obligations.StatusIsNeverRead := by
  intro s t w h
  have hr := step_runState h
  obtain ⟨e, rfl, he⟩ := step_effect h
  obtain ⟨w', hw', hkept⟩ := e.apply_setStatus s w
  exact ⟨w', by rw [he (s.setStatus w) hr rfl rfl, hw'], hkept⟩

/-- Settles O12: the other memory gives the same instruction, or LDA without room for its operand. -/
theorem stepReadsMemoryOnlyToFetch : Obligations.StepReadsMemoryOnlyToFetch := by
  intro s t m h hop hoperand
  exact ⟨step_setMem h hop hoperand, step_mem h⟩

/-- Settles O13: the step's effect is the same one, and only its result depends on the registers. -/
theorem controlFlowIgnoresData : Obligations.ControlFlowIgnoresData := by
  intro s t a' x' w h
  have hr := step_runState h
  obtain ⟨e, rfl, he⟩ := step_effect h
  exact ⟨_, he _ hr rfl rfl, e.apply_control s a' x' w⟩

/-- Settles O49: a faulting step's record has one of the two kinds, and each operation has one error. -/
theorem faultAndErrorCodes : Obligations.FaultAndErrorCodes := by
  refine ⟨?_, fun _ _ _ => Memory.read16_error_code, fun _ _ _ _ => Memory.write16_error_code,
    fun _ _ _ _ => Memory.loadBlock_error_code, fun _ _ _ => hostLoad_error_code⟩
  intro s t h ht
  obtain ⟨kind, rfl, _⟩ := step_faulted h ht
  refine ⟨_, rfl, ?_⟩
  cases kind with
  | unimplementedOpcode => exact .inl rfl
  | pcOverflow => exact .inr rfl

/-- Settles O50: zero has no bit 7, and a step keeps `STATUS` or updates its flags. -/
theorem zeroAndNegativeExclusive : Obligations.ZeroAndNegativeExclusive := by
  refine ⟨flagsZN_exclusive, fun s t hs h => ?_⟩
  obtain hkept | ⟨v, hnew⟩ := step_status_kept_or_updated h
  · rw [hkept]
    exact hs
  · rw [hnew]
    exact flagsZN_exclusive s.status v

end Sys2Proof.Proofs

/-! ### The statements about the instructions -/

namespace Sys2Proof.Proofs

open Sys2Proof.Machine

/-- Settles O14: up to 0xFFFD both bytes fit and LDA retires its operand into `A`; above, the advance overflows. -/
theorem ldaLoadsImmediate : Obligations.LdaLoadsImmediate := by
  intro imm8 s
  refine ⟨rfl, fun hfit => ?_, flagsZN_reflects s.status imm8, fun hover => exec_lda_overflow imm8 (by omega), ?_⟩
  · obtain ⟨h, h'⟩ := (lda_fits_iff s.pc).mp hfit
    rw [exec_lda_fits imm8 h h', add_assoc]
    rfl
  · intro hr hfit hop
    exact step_opLda hr ((lda_fits_iff s.pc).mp hfit).1 hop

/-- Settles O17: BRK retires below 0xFFFF and overflows there. -/
theorem brkHalts : Obligations.BrkHalts := by
  intro s
  exact ⟨rfl, exec_brk_fits, exec_top .brk, step_opBrk⟩

/-- Settles O18: the advance passes below 0xFFFF, and the fetch finds the byte's own instruction. -/
theorem unimplementedOpcodeFaults : Obligations.UnimplementedOpcodeFaults := by
  intro op s hu hpc
  exact ⟨exec_unimplemented_fits op hpc, fun hr hop => step_not_defined hr hpc hop hu⟩

/-- Settles O19: every meaning advances past its opcode first. -/
theorem topOfMemoryOverflows : Obligations.TopOfMemoryOverflows := by
  intro i s hpc
  refine ⟨opcodeOf i, (encode i).tail, ?_, exec_top i hpc⟩
  cases i <;> rfl

/-- Settles O20: a meaning writes its result register and the flags from it, if it has one, and no memory. -/
theorem instructionFrame : Obligations.InstructionFrame := by
  intro i s t h
  have hc := exec_next_cases h
  refine ⟨?_, ?_, ?_, fun _ => hc.status_reserved, fun _ => by rw [hc.mem], hc.runState, ?_⟩
  · rintro imm8 rfl
    exact hc.readReg_frame (q := .x) (by simp [resultReg])
  · rintro (rfl | rfl)
    · exact hc.readReg_frame (q := .a) (by decide)
    · exact hc.readReg_frame (q := .a) (by decide)
  · intro hi
    have hnone : resultReg i = none := by
      obtain rfl | ⟨op, rfl⟩ := hi
      · rfl
      · rfl
    exact ⟨hc.readReg_frame (q := .a) (by simp [hnone]), hc.readReg_frame (q := .x) (by simp [hnone]),
      hc.status_frame hnone⟩
  · by_cases ht : t.runState = .faulted
    · exact .inr ht
    · exact .inl (hc.fault_of_retired ht)

end Sys2Proof.Proofs

/-! ### 16-bit and 8-bit accesses together (spec/20_memory.md R46, R47) -/

namespace Sys2Proof.Machine

theorem word16_hiByte_loByte (v : BitVec 16) : word16 (hiByte v) (loByte v) = v := by
  refine BitVec.eq_of_toNat_eq ?_
  rw [word16_toNat, hiByte_toNat, loByte_toNat]
  omega

/-- Two bytes written at an address and the next one are the pair there. -/
theorem Memory.pairAt_write8_write8 {m : Memory} (addr : Addr) (lo hi : Byte) (hm : Memory.wf m = true) :
    Memory.pairAt (Memory.write8 (Memory.write8 m addr lo) (addr + 1) hi) addr = word16 hi lo := by
  rw [Memory.pairAt, Memory.read8_write8_same _ _ (Memory.write8_wf _ _ hm),
    Memory.read8_write8_other _ _ (addr_ne_succ addr), Memory.read8_write8_same _ _ hm]

/-! ### The canonical form has no two lists for one memory (notes/assumptions/1.md) -/

@[simp] theorem Memory.get_head (k : Nat) (b : Byte) (rest : Memory) : Memory.get ((k, b) :: rest) k = b :=
  if_pos rfl

theorem Memory.get_tail {k n : Nat} (b : Byte) (rest : Memory) (h : k ≠ n) :
    Memory.get ((k, b) :: rest) n = Memory.get rest n :=
  if_neg h

/-- The first listed byte of a canonical list shows at its address: a canonical list that starts later reads differently
there. -/
theorem Memory.get_head_ne {lo k : Nat} {b : Byte} {rest m : Memory} (hm : Memory.wfFrom lo ((k, b) :: rest) = true)
    (hm' : Memory.wfFrom (k + 1) m = true) : Memory.get ((k, b) :: rest) k ≠ Memory.get m k := by
  obtain ⟨_, _, hb, _⟩ := Memory.wfFrom_cons.mp hm
  rw [Memory.get_head, Memory.get_below hm' (Nat.lt_succ_self k)]
  exact hb

/-- Lists that read alike with the same first pair have tails that read alike. -/
theorem Memory.get_tail_eq {k : Nat} {b : Byte} {rest rest' : Memory} (hr : Memory.wfFrom (k + 1) rest = true)
    (hr' : Memory.wfFrom (k + 1) rest' = true)
    (h : ∀ n < Config.memSize, Memory.get ((k, b) :: rest) n = Memory.get ((k, b) :: rest') n) :
    ∀ n < Config.memSize, Memory.get rest n = Memory.get rest' n := by
  intro n hn
  by_cases hk : k = n
  · subst hk
    rw [Memory.get_below hr (Nat.lt_succ_self k), Memory.get_below hr' (Nat.lt_succ_self k)]
  · rw [← Memory.get_tail b rest hk, ← Memory.get_tail b rest' hk]
    exact h n hn

theorem Memory.eq_of_get_eq {m m' : Memory} {lo lo' : Nat} (hm : Memory.wfFrom lo m = true)
    (hm' : Memory.wfFrom lo' m' = true) (h : ∀ n < Config.memSize, Memory.get m n = Memory.get m' n) : m = m' := by
  induction m generalizing m' lo lo' with
  | nil =>
    cases m' with
    | nil => rfl
    | cons c' rest' =>
      obtain ⟨k', b'⟩ := c'
      obtain ⟨_, hk', _, _⟩ := Memory.wfFrom_cons.mp hm'
      exact absurd (h k' hk').symm (Memory.get_head_ne hm' rfl)
  | cons c rest ih =>
    obtain ⟨k, b⟩ := c
    obtain ⟨_, hk, hb, hrest⟩ := Memory.wfFrom_cons.mp hm
    cases m' with
    | nil => exact absurd (h k hk) (Memory.get_head_ne hm rfl)
    | cons c' rest' =>
      obtain ⟨k', b'⟩ := c'
      obtain ⟨_, hk', hb', hrest'⟩ := Memory.wfFrom_cons.mp hm'
      rcases Nat.lt_trichotomy k k' with hlt | rfl | hgt
      · exact absurd (h k hk) (Memory.get_head_ne hm (Memory.wfFrom_cons.mpr ⟨hlt, hk', hb', hrest'⟩))
      · obtain rfl : b = b' := by simpa using h k hk
        rw [ih hrest hrest' (Memory.get_tail_eq hrest hrest' h)]
      · exact absurd (h k' hk').symm (Memory.get_head_ne hm' (Memory.wfFrom_cons.mpr ⟨hgt, hk, hb, hrest⟩))

/-- A byte of the address space has an address. -/
theorem Memory.get_eq_read8 (m : Memory) {n : Nat} (h : n < Config.memSize) :
    Memory.get m n = Memory.read8 m (BitVec.ofNat 16 n) := by
  rw [Memory.read8, BitVec.toNat_ofNat, Nat.mod_eq_of_lt h]

/-! ### A table word placed at `PC` (notes/assumptions/2.md) -/

theorem decode_of_decodeTableWord {nbits w : Nat} {i : Instr} (h : decodeTableWord nbits w = some i) :
    ∃ rest, decode [(tableBytes nbits w).1, (tableBytes nbits w).2] = .ok (i, rest) := by
  unfold decodeTableWord at h
  split at h
  case h_1 j rest hd =>
    cases h
    exact ⟨rest, hd⟩
  case h_2 => cases h

@[simp] theorem State.withFetchWord_pc (s : State) (nbits w : Nat) : (s.withFetchWord nbits w).pc = s.pc := rfl

theorem State.withFetchWord_mem {s : State} (nbits w : Nat) (hpc : s.pc ≠ Config.topAddr) :
    (s.withFetchWord nbits w).mem =
      Memory.write8 (Memory.write8 s.mem s.pc (tableBytes nbits w).1) (s.pc + 1) (tableBytes nbits w).2 :=
  if_neg hpc

theorem fetchWindow_withFetchWord {s : State} (nbits w : Nat) (hm : Memory.wf s.mem = true)
    (hpc : s.pc ≠ Config.topAddr) :
    fetchWindow (s.withFetchWord nbits w) = [(tableBytes nbits w).1, (tableBytes nbits w).2] := by
  rw [fetchWindow_below (s := s.withFetchWord nbits w) hpc, State.withFetchWord_mem nbits w hpc, State.withFetchWord_pc,
    Memory.read8_write8_other _ _ (addr_ne_succ s.pc), Memory.read8_write8_same _ _ hm,
    Memory.read8_write8_same _ _ (Memory.write8_wf _ _ hm)]

end Sys2Proof.Machine

/-! ### The statements about memory's two widths, its form, and the placed word -/

namespace Sys2Proof.Proofs

open Sys2Proof.Machine

/-- Settles O26: both ways write two bytes, whose pair is read back. -/
theorem mixedWidthRoundTrips : Obligations.MixedWidthRoundTrips := by
  intro m addr hm hne
  refine ⟨fun v m' h => ?_, fun b0 b1 => ?_⟩
  · rw [Memory.write16_below m v hne] at h
    cases h
    rw [Memory.read16_below _ hne, Memory.pairAt_write8_write8 addr _ _ hm, word16_hiByte_loByte]
  · rw [Memory.read16_below _ hne, Memory.pairAt_write8_write8 addr _ _ hm]
    rfl

/-- Settles O28, by induction on both lists: the earlier of two different first addresses reads differently. -/
theorem canonicalMemoriesThatReadAlikeAreEqual : Obligations.CanonicalMemoriesThatReadAlikeAreEqual := by
  intro m m' hm hm' h
  refine Memory.eq_of_get_eq hm hm' fun n hn => ?_
  rw [Memory.get_eq_read8 m hn, Memory.get_eq_read8 m' hn, h]

/-- Settles O48: the two bytes placed are the window of the next fetch. -/
theorem placedWordRunsNext : Obligations.PlacedWordRunsNext := by
  intro s nbits w i hm hpc h
  obtain ⟨rest, hd⟩ := decode_of_decodeTableWord h
  rw [← fetchWindow_withFetchWord nbits w hm hpc] at hd
  exact step_of_fetch rfl (fetch_of_decode_ok hd)

end Sys2Proof.Proofs

/-! ### `load`, `reset` and presets (spec/70_reset_and_hazards.md R150 to R158) -/

namespace Sys2Proof.Machine

theorem resetVector_ne_top : Config.resetVector ≠ Config.topAddr := by decide

/-- `load` leaves 0x8000 in the reset vector. -/
theorem Memory.pairAt_withProgram {m : Memory} {program : List Byte} (hm : Memory.wf m = true)
    (h : program.length ≤ Config.loadCapacity) :
    Memory.pairAt (Memory.withProgram m program) Config.resetVector = Config.romBase := by
  rw [Memory.withProgram, Memory.pairAt_write8_write8 _ _ _ (Memory.copyFrom_wf hm (program_fits h)),
    word16_hiByte_loByte]

/-- Outside the reset vector `load` leaves the copy of the program. -/
theorem Memory.read8_withProgram (m : Memory) (program : List Byte) {addr : Addr} (hlo : addr ≠ Config.resetVector)
    (hhi : addr ≠ Config.resetVector + 1) :
    Memory.read8 (Memory.withProgram m program) addr =
      Memory.read8 (Memory.copyFrom m Config.romBase.toNat program) addr := by
  rw [Memory.withProgram, Memory.read8_write8_other _ _ hhi, Memory.read8_write8_other _ _ hlo]

theorem Memory.read8_withProgram_vector {m : Memory} {program : List Byte} (hm : Memory.wf m = true)
    (h : program.length ≤ Config.loadCapacity) :
    Memory.read8 (Memory.withProgram m program) Config.resetVector = loByte Config.romBase ∧
      Memory.read8 (Memory.withProgram m program) (Config.resetVector + 1) = hiByte Config.romBase := by
  have hcopy := Memory.copyFrom_wf hm (program_fits h)
  rw [Memory.withProgram]
  constructor
  · rw [Memory.read8_write8_other _ _ (addr_ne_succ _), Memory.read8_write8_same _ _ hcopy]
  · rw [Memory.read8_write8_same _ _ (Memory.write8_wf _ _ hcopy)]

/-- The address of byte `k` of a program is `k` above 0x8000, so it is that of the reset vector for one `k` only. -/
theorem romBase_add_ne {k j : Nat} (hk : k < Config.loadCapacity) (hj : j < Config.loadCapacity) (hne : k ≠ j) :
    Config.romBase + BitVec.ofNat 16 k ≠ Config.romBase + BitVec.ofNat 16 j := by
  intro h
  have hfit : ∀ i < Config.loadCapacity, Config.romBase.toNat + i < Config.memSize := fun i hi =>
    Nat.add_lt_add_left hi 0x8000
  have hnat := congrArg BitVec.toNat h
  rw [toNat_add_offset (hfit k hk), toNat_add_offset (hfit j hj)] at hnat
  exact hne (Nat.add_left_cancel hnat)

/-- What `reset` leaves depends on memory alone. -/
theorem hostReset_congr {s t : State} (h : t.mem = s.mem) : hostReset t = hostReset s := by
  simp only [hostReset, State.setA, State.setX, State.setStatus, State.setPc, State.setRunState, State.setFault, h]

theorem hostReset_after_load {program : List Byte} {s t : State} (hm : Memory.wf s.mem = true)
    (h : hostLoad program s = .ok t) : hostReset t = { State.reset with pc := 0x8000, mem := t.mem } := by
  obtain ⟨hlen, rfl⟩ := (hostLoad_eq_ok_iff program s t).mp h
  rw [← show Config.romBase = (0x8000 : Addr) from rfl, ← Memory.pairAt_withProgram hm hlen]
  rfl

/-- Presets performed as host operations are the presets applied in order. -/
theorem performAll_presets (presets : List Preset) (s : State) :
    performAll (presets.map HostOp.preset) s = presets.foldl (fun u p => hostPreset p u) s := by
  induction presets generalizing s with
  | nil => rfl
  | cons p ps ih => exact ih (hostPreset p s)

theorem performAll_presets_frame (presets : List Preset) (s : State) :
    (performAll (presets.map HostOp.preset) s).mem = s.mem ∧
      (performAll (presets.map HostOp.preset) s).runState = s.runState ∧
      (performAll (presets.map HostOp.preset) s).fault = s.fault := by
  induction presets generalizing s with
  | nil => exact ⟨rfl, rfl, rfl⟩
  | cons p ps ih =>
    obtain ⟨hmem, hrun, hfault⟩ := ih (hostPreset p s)
    exact ⟨hmem.trans (hostPreset_mem p s), hrun.trans (hostPreset_runState p s),
      hfault.trans (hostPreset_fault p s)⟩

theorem perform_mem_of_loadsNothing {op : HostOp} (s : State) (h : op.loadsNothing = true) :
    (perform op s).2.mem = s.mem := by
  cases op with
  | load program => cases h
  | reset => rfl
  | run budget => exact hostRun_mem budget s
  | loadAndRun program budget => cases h
  | preset p => exact hostPreset_mem p s

theorem performAll_mem_of_loadsNothing {ops : List HostOp} (s : State) (h : ops.all HostOp.loadsNothing = true) :
    (performAll ops s).mem = s.mem := by
  induction ops generalizing s with
  | nil => rfl
  | cons op ops ih =>
    rw [List.all_cons, Bool.and_eq_true] at h
    exact (ih _ h.2).trans (perform_mem_of_loadsNothing s h.1)

/-! ### The run loop (spec/70_reset_and_hazards.md R156) -/

theorem stepOrStay_of_next {s t : State} (h : step s = .next t) : stepOrStay s = t := by
  simp only [stepOrStay, h]

/-- The loop goes on where the step leaves the block `Ready`. -/
theorem runSteps_of_ready {s t : State} (n : Nat) (h : step s = .next t) (ht : t.runState = .ready) :
    runSteps (n + 1) s = runSteps n t := by
  simp only [runSteps, stepOrStay_of_next h, ht]

theorem runSteps_of_halted {s t : State} (n : Nat) (h : step s = .next t) (ht : t.runState = .halted) :
    runSteps (n + 1) s = (.halted, t) := by
  simp only [runSteps, stepOrStay_of_next h, ht]

theorem runSteps_of_faulted {s t : State} (n : Nat) (h : step s = .next t) (ht : t.runState = .faulted) :
    runSteps (n + 1) s = (.fault t.fault, t) := by
  simp only [runSteps, stepOrStay_of_next h, ht]

theorem hostRun_of_ready (budget : Option Nat) {s : State} (h : s.runState = .ready) :
    hostRun budget s = runSteps (stepsAllowed budget s) s := by
  simp only [hostRun, h]

/-- How a run that is not cut short ends: in a state `t` that is no longer `Ready`, with the result that says so. -/
def RunEnds (r : RunResult) (t : State) : Prop :=
  (t.runState = .halted ∧ r = .halted) ∨ (t.runState = .faulted ∧ r = .fault t.fault)

theorem RunEnds.halted {t : State} (h : RunEnds .halted t) : t.runState = .halted := by
  obtain ⟨ht, _⟩ | ⟨_, hr⟩ := h
  · exact ht
  · cases hr

theorem RunEnds.fault {f : Option FaultRecord} {t : State} (h : RunEnds (.fault f) t) :
    t.runState = .faulted ∧ t.fault = f := by
  obtain ⟨_, hr⟩ | ⟨ht, hr⟩ := h
  · cases hr
  · cases hr
    exact ⟨ht, rfl⟩

theorem RunEnds.not_budgetExhausted {r : RunResult} {t : State} (h : RunEnds r t) : r ≠ .budgetExhausted := by
  obtain ⟨_, rfl⟩ | ⟨_, rfl⟩ := h
  · exact nofun
  · exact nofun

/-- One turn of the loop from `Ready`: the step ends the run whatever the budget, or leaves a `Ready` block farther up in
memory, from which the loop goes on. -/
theorem runSteps_turn {s : State} (hr : s.runState = .ready) :
    (∃ r t, step s = .next t ∧ RunEnds r t ∧ ∀ n, runSteps (n + 1) s = (r, t)) ∨
      ∃ t, step s = .next t ∧ t.runState = .ready ∧ s.pc.toNat < t.pc.toNat ∧
        ∀ n, runSteps (n + 1) s = runSteps n t := by
  obtain ⟨t, ht⟩ := step_defined hr
  cases hrun : t.runState with
  | halted => exact .inl ⟨_, t, ht, .inl ⟨hrun, rfl⟩, fun n => runSteps_of_halted n ht hrun⟩
  | faulted => exact .inl ⟨_, t, ht, .inr ⟨hrun, rfl⟩, fun n => runSteps_of_faulted n ht hrun⟩
  | ready =>
    refine .inr ⟨t, ht, hrun, ?_, fun n => runSteps_of_ready n ht hrun⟩
    rw [step_pc_of_retired ht (by simp [hrun])]
    split <;> omega

/-- A run that used up its steps stands `Ready`, and more steps go on from there. -/
theorem runSteps_add {m : Nat} {s t : State} (hr : s.runState = .ready)
    (h : runSteps m s = (.budgetExhausted, t)) :
    t.runState = .ready ∧ ∀ n, runSteps (m + n) s = runSteps n t := by
  induction m generalizing s with
  | zero =>
    cases h
    exact ⟨hr, fun n => by rw [Nat.zero_add]⟩
  | succ m ih =>
    obtain ⟨r, u, _, hend, hturn⟩ | ⟨u, _, hu, _, hturn⟩ := runSteps_turn hr
    · rw [hturn] at h
      cases h
      exact absurd rfl hend.not_budgetExhausted
    · rw [hturn] at h
      obtain ⟨ht, hgo⟩ := ih hu h
      exact ⟨ht, fun n => by rw [Nat.succ_add, hturn, hgo]⟩

/-- The last step of a run that was not cut short, from a `Ready` block with the memory and `FAULT` of the start. -/
theorem runSteps_last_step {n : Nat} {s t : State} {r : RunResult} (hr : s.runState = .ready)
    (h : runSteps n s = (r, t)) (hne : r ≠ .budgetExhausted) :
    RunEnds r t ∧ ∃ u, step u = .next t ∧ u.mem = s.mem ∧ u.fault = s.fault := by
  induction n generalizing s with
  | zero =>
    cases h
    exact absurd rfl hne
  | succ n ih =>
    obtain ⟨r', u, hu, hend, hturn⟩ | ⟨u, hu, hru, _, hturn⟩ := runSteps_turn hr
    · rw [hturn] at h
      cases h
      exact ⟨hend, s, hu, rfl, rfl⟩
    · rw [hturn] at h
      obtain ⟨hend, v, hv, hmem, hfault⟩ := ih hru h
      exact ⟨hend, v, hv, hmem.trans (step_mem hu), hfault.trans (step_fault_of_retired hu (by simp [hru]))⟩

/-- R166: each turn moves `PC` up, so with as many steps as addresses from `PC` on, no run is cut short, and with more
steps it is the same run. -/
theorem runSteps_ends {m : Nat} {s : State} (hr : s.runState = .ready) (hm : Config.memSize - s.pc.toNat ≤ m) :
    (runSteps m s).1 ≠ .budgetExhausted ∧ ∀ n, m ≤ n → runSteps n s = runSteps m s := by
  have hpc := s.pc.isLt
  simp only [Config.memSize] at hm
  induction m generalizing s with
  | zero => omega
  | succ m ih =>
    obtain ⟨r, t, _, hend, hturn⟩ | ⟨t, _, ht, hup, hturn⟩ := runSteps_turn hr
    · refine ⟨by rw [hturn]; exact hend.not_budgetExhausted, fun n hn => ?_⟩
      obtain ⟨k, rfl⟩ := Nat.exists_eq_succ_of_ne_zero (Nat.ne_of_gt (Nat.zero_lt_of_lt hn))
      rw [hturn, hturn]
    · obtain ⟨hne, hsame⟩ := ih ht (by omega) t.pc.isLt
      refine ⟨by rw [hturn]; exact hne, fun n hn => ?_⟩
      obtain ⟨k, rfl⟩ := Nat.exists_eq_succ_of_ne_zero (Nat.ne_of_gt (Nat.zero_lt_of_lt hn))
      rw [hturn, hturn, hsame k (Nat.le_of_succ_le_succ hn)]

/-- A run that answers no fault did not start in `Faulted`. -/
theorem not_faulted_of_hostRun {budget : Option Nat} {s t : State} {r : RunResult} (h : hostRun budget s = (r, t))
    (hr : ∀ f, r ≠ .fault f) : s.runState ≠ .faulted := by
  intro hf
  rw [hostRun_of_faulted budget hf, Prod.mk.injEq] at h
  exact hr s.fault h.1.symm

/-- The last step of a run outside `Faulted` that was not cut short. -/
theorem hostRun_last_step {budget : Option Nat} {s t : State} {r : RunResult} (hs : s.runState ≠ .faulted)
    (h : hostRun budget s = (r, t)) (hne : r ≠ .budgetExhausted) :
    RunEnds r t ∧ ∃ u, step u = .next t ∧ u.mem = s.mem ∧ u.fault = s.fault := by
  rw [hostRun_of_not_faulted budget hs] at h
  exact runSteps_last_step (s := s.setRunState .ready) rfl h hne

end Sys2Proof.Machine

/-! ### The statements about the host interface -/

namespace Sys2Proof.Proofs

open Sys2Proof.Machine

/-- Settles O34: `load` is the copy and then the vector, which replaces only what stands at its two addresses. -/
theorem hostLoadPlacesProgram : Obligations.HostLoadPlacesProgram := by
  intro program s hm hlen
  obtain ⟨hlo, hhi⟩ := Memory.read8_withProgram_vector hm hlen
  refine ⟨_, hostLoad_fits s hlen, hlo, hhi, fun k hk hk0 hk1 => ?_, fun a ha0 ha1 hout => ?_⟩
  · have hcap : k < Config.loadCapacity := Nat.lt_of_lt_of_le hk hlen
    have hread := Memory.read8_withProgram s.mem program (romBase_add_ne hcap (j := 0x7FFC) (by decide) hk0)
      (romBase_add_ne hcap (j := 0x7FFD) (by decide) hk1)
    exact hread.trans (Memory.read8_copyFrom_inside hm (program_fits hlen) hk)
  · rw [Memory.read8_withProgram s.mem program ha0 ha1]
    exact Memory.get_copyFrom_outside s.mem program hout

/-- Settles O36: the vector that `load` leaves is 0x8000, and presets keep memory, `RUN` and `FAULT`. -/
theorem launchStartsAtRomBase : Obligations.LaunchStartsAtRomBase := by
  intro program presets s t hm h
  have hfold := (performAll_presets presets (hostReset t)).symm
  obtain ⟨hmem, hrun, hfault⟩ := performAll_presets_frame presets (hostReset t)
  refine ⟨hostReset_after_load hm h, performAll (presets.map HostOp.preset) (hostReset t), ?_, rfl, ?_, hmem, hrun,
    hfault⟩
  · simp only [launch, h, hfold]
  · simp only [performAll, perform, h]

/-- Settles O51: `reset` looks at memory alone, and the operation keeps it. -/
theorem operationKeepsResetOutcome : Obligations.OperationKeepsResetOutcome := by
  intro op s h
  exact hostReset_congr (perform_mem_of_loadsNothing s h)

/-- Settles O37: `reset` looks at memory alone, and no operation of the sequence changes it. -/
theorem resetAfterLoadAlwaysRestores : Obligations.ResetAfterLoadAlwaysRestores := by
  intro program ops s t hm h hops
  have hsame : hostReset (performAll ops t) = hostReset t := hostReset_congr (performAll_mem_of_loadsNothing t hops)
  exact ⟨hsame, by rw [hsame, hostReset_after_load hm h]⟩

/-- Settles O41: the three outcomes of the step are the three cases of the loop. -/
theorem runTakesOneStep : Obligations.RunTakesOneStep := by
  intro n s t h
  rw [hostRun_of_ready _ (step_runState h)]
  cases ht : t.runState with
  | halted => exact runSteps_of_halted n h ht
  | faulted => exact runSteps_of_faulted n h ht
  | ready => exact (runSteps_of_ready n h ht).trans (hostRun_of_ready (some n) ht).symm

/-- Settles O42: a run that used up its budget did not start in `Faulted`, so it is the loop, whose budgets add. -/
theorem runContinuesAfterBudget : Obligations.RunContinuesAfterBudget := by
  intro m n s t h
  have hs := not_faulted_of_hostRun h nofun
  rw [hostRun_of_not_faulted _ hs] at h ⊢
  obtain ⟨ht, hgo⟩ := runSteps_add (s := s.setRunState .ready) rfl h
  exact ⟨ht, (hgo n).trans (hostRun_of_ready (some n) ht).symm⟩

/-- Settles O43: in `Faulted` the budget plays no part; otherwise the loop ends within R166's bound. -/
theorem unboundedRunEnds : Obligations.UnboundedRunEnds := by
  intro s
  by_cases hs : s.runState = .faulted
  · simp only [hostRun_of_faulted _ hs]
    exact ⟨nofun, fun _ _ => trivial⟩
  · simp only [hostRun_of_not_faulted _ hs]
    exact runSteps_ends (s := s.setRunState .ready) rfl le_rfl

/-- Settles O44: the last step of the run is BRK's. -/
theorem haltedRunStopsPastBrk : Obligations.HaltedRunStopsPastBrk := by
  intro budget s t h
  have hs := not_faulted_of_hostRun h nofun
  obtain ⟨hend, u, hu, hmem, hfault⟩ := hostRun_last_step hs h nofun
  have ht := hend.halted
  have hret : t.runState ≠ .faulted := by simp [ht]
  have hbrk := step_halted hu ht
  refine ⟨ht, (step_fault_of_retired hu hret).trans hfault, u.pc, by rw [← hmem]; exact hbrk, ?_⟩
  rw [step_pc_of_retired hu hret, hbrk]
  rfl

/-- Settles O45: outside `Faulted` the record is the one that the last step of the run entered. -/
theorem faultedRunReportsRecord : Obligations.FaultedRunReportsRecord := by
  intro budget s t f h
  by_cases hs : s.runState = .faulted
  · rw [hostRun_of_faulted _ hs] at h
    cases h
    exact ⟨hs, rfl, fun hne => absurd hs hne⟩
  · obtain ⟨hend, u, hu, hmem, _⟩ := hostRun_last_step hs h nofun
    obtain ⟨ht, hf⟩ := hend.fault
    obtain ⟨kind, rfl, hj⟩ := step_faulted hu ht
    exact ⟨ht, hf, fun _ => ⟨_, hf.symm, by rw [← hmem], rfl, hj⟩⟩

/-- Settles O32: the three are one state, with every field written out. -/
theorem constructionAndResetValues : Obligations.ConstructionAndResetValues := by
  refine ⟨?_, rfl, rfl⟩
  rintro s (rfl | rfl | rfl)
  · exact ⟨rfl, rfl, rfl, rfl, rfl, rfl, fun _ => rfl⟩
  · exact ⟨rfl, rfl, rfl, rfl, rfl, rfl, fun _ => rfl⟩
  · exact ⟨rfl, rfl, rfl, rfl, rfl, rfl, fun _ => rfl⟩

/-- Settles O33: the vector stands below 0xFFFF, so its pair of bytes is what `read16` answers. -/
theorem hostResetClearsAndVectors : Obligations.HostResetClearsAndVectors := by
  intro s
  exact ⟨_, Memory.read16_below s.mem resetVector_ne_top, word16_toNat _ _, rfl⟩

/-- Settles O35: the capacity check of `load` comes first. -/
theorem hostLoadRefusesLargeImage : Obligations.HostLoadRefusesLargeImage := by
  intro program s hlen
  have hl := hostLoad_too_large s hlen
  exact ⟨hl, by simp only [perform, hl], rfl⟩

/-- Settles O38: a run of a faulted block takes no step, and of the other operations only `reset` writes `RUN` or
`FAULT`. -/
theorem faultLastsUntilReset : Obligations.FaultLastsUntilReset := by
  intro s hs
  refine ⟨fun budget => hostRun_of_faulted budget hs, fun program t h => ?_, fun p => ?_, rfl, rfl⟩
  · obtain ⟨_, rfl⟩ := (hostLoad_eq_ok_iff program s t).mp h
    exact ⟨hs, rfl⟩
  · exact ⟨(hostPreset_runState p s).trans hs, hostPreset_fault p s⟩

/-- Settles O39: each preset is the one register's writer. -/
theorem presetWritesOneRegister : Obligations.PresetWritesOneRegister := by
  intro s v addr
  exact ⟨rfl, rfl, rfl, rfl⟩

/-- Settles O40: outside `Faulted` a run starts by making the block `Ready`. -/
theorem runResumesAfterHalt : Obligations.RunResumesAfterHalt := by
  intro budget s hs
  have hne : s.runState ≠ .faulted := by simp [hs]
  refine ⟨?_, by rw [hostRun_of_not_faulted _ hne]; rfl⟩
  rw [hostRun_of_not_faulted budget hne]
  exact (hostRun_of_ready budget (s := s.setRunState .ready) rfl).symm

/-- Settles O47: `load_and_run` branches on what `load` answers. -/
theorem loadAndRunComposes : Obligations.LoadAndRunComposes := by
  intro program budget s
  refine ⟨fun hlen => ?_, fun hlen => ?_⟩
  · simp only [perform, hostLoadAndRun, hostLoad_too_large s hlen]
  · simp only [performAll, perform, hostLoadAndRun, hostLoad_fits s hlen]

end Sys2Proof.Proofs
